-- ==== Sys2Proof/Word.lean ====
section
/-! DEFINITION. The word types of the core: every quantity is an unsigned bit vector (R6, R21, R23, R24, R71). -/

namespace Sys2Proof

/-- A general register, a memory cell, a timer (R21, R25, R29). -/
abbrev Byte := BitVec 8

/-- An instruction word, `I`, `pc`, a stack entry (R23, R24, R26, R70). -/
abbrev Word := BitVec 16

/-- A register number or the constant `N` (R71, R73). -/
abbrev Nibble := BitVec 4

/-- The 12-bit address operand `NNN` (R71, R73). -/
abbrev Addr12 := BitVec 12

/-- One row of the framebuffer: bit `x` is the cell of column `x` (R27). -/
abbrev PixelRow := BitVec 64

end Sys2Proof
end

