-- ==== Sys2Proof/Config.lean ====
section
/-! DEFINITION. The parameters of R5 and the free values the outside supplies (R11, R112, R214). -/

namespace Sys2Proof

/-- What the outside supplies to one step (the inputs of R112 and R214). Which of them a step reads is the
business of its instruction; a step that asks for none ignores all but `ticks`. -/
structure StepInput where
  /-- `tick60`: how many 1/60 s intervals elapse during this step (R33, R213, U7). -/
  ticks : Nat
  /-- `keys_in[0..15]`: bit `k` is 1 when key `k` is down (R180, U8). -/
  keys : BitVec 16
  /-- `rand_in`: the byte RAND draws (R151, U6). -/
  rand : Byte
  /-- `key_down(k)`: the key-down event that arrives during this step, if one does (R105, U8). -/
  keyDown : Option Nibble
deriving DecidableEq, Repr, Inhabited

/-- FREE VALUE (log entry 1): the inputs of the steps that `State.inputs` does not list. Nothing is known of it. -/
opaque Config.freeInput : Nat → StepInput

/-- `CPU_HZ`, OPEN in the spec (D32, U5): the rate of cycles lies outside the core and no rule depends on it
(log entry 25). -/
opaque Config.cpuHz : Nat

/-- `MEMORY_SIZE` (R5). -/
abbrev Config.memorySize : Nat := 4096

/-- `ROM_BASE`, also the entry point (R5, R56). -/
abbrev Config.romBase : Nat := 0x200

/-- `MAX_ROM_LEN` (R5, R205). -/
abbrev Config.maxRomLen : Nat := Config.memorySize - Config.romBase

/-- `FONT_BASE` (R5, R162). -/
abbrev Config.fontBase : Nat := 0x50

/-- `FONT_LEN`: 16 glyphs of 5 bytes (R5). -/
abbrev Config.fontLen : Nat := 80

/-- Rows, and bytes, of one glyph (R162, R243). -/
abbrev Config.glyphLen : Nat := 5

/-- `NUM_REGS` (R5, R21). -/
abbrev Config.numRegs : Nat := 16

/-- `STACK_CAPACITY` (R5, R26; the spec's decision D6, log entry 11). -/
abbrev Config.stackCapacity : Nat := 16

/-- `FB_WIDTH` (R5, R27). -/
abbrev Config.fbWidth : Nat := 64

/-- `FB_HEIGHT` (R5, R27). -/
abbrev Config.fbHeight : Nat := 32

/-- `NUM_KEYS` (R5, R30). -/
abbrev Config.numKeys : Nat := 16

/-- `TIMER_HZ` (R5, R211): the nominal rate of `tick60`; no rule computes with it. -/
abbrev Config.timerHz : Nat := 60

/-- Glyphs 0 to 7 of the default font (R243). -/
def Config.fontLow : List Byte :=
  [0xF0, 0x90, 0x90, 0x90, 0xF0,  0x20, 0x60, 0x20, 0x20, 0x70,
   0xF0, 0x10, 0xF0, 0x80, 0xF0,  0xF0, 0x10, 0xF0, 0x10, 0xF0,
   0x90, 0x90, 0xF0, 0x10, 0x10,  0xF0, 0x80, 0xF0, 0x10, 0xF0,
   0xF0, 0x80, 0xF0, 0x90, 0xF0,  0xF0, 0x10, 0x20, 0x40, 0x40]

/-- Glyphs 8 to F of the default font (R243). -/
def Config.fontHigh : List Byte :=
  [0xF0, 0x90, 0xF0, 0x90, 0xF0,  0xF0, 0x90, 0xF0, 0x10, 0xF0,
   0xF0, 0x90, 0xF0, 0x90, 0x90,  0xE0, 0x90, 0xE0, 0x90, 0xE0,
   0xF0, 0x80, 0x80, 0x80, 0xF0,  0xE0, 0x90, 0x90, 0x90, 0xE0,
   0xF0, 0x80, 0xF0, 0x80, 0xF0,  0xF0, 0x80, 0xF0, 0x80, 0x80]

/-- The default of the parameter `FONT_TABLE` (R243; the spec's general knowledge, D27, log entry 12). The loader
takes the table as an argument, so nothing depends on these bytes unless it names them. -/
def Config.defaultFont : List Byte := Config.fontLow ++ Config.fontHigh

end Sys2Proof
end

