-- ==== Sys2Proof/Machine/State.lean ====
section
/-! DEFINITION. The state of the core (R20 to R33), the reasons a step can stop, and the state after reset (R35). -/

namespace Sys2Proof.Machine

/-- The resting values of `PHASE` (R31: "A model that runs a whole cycle as one step needs only two resting values"). -/
inductive Phase where
  /-- READY: the next step begins a cycle (R100). -/
  | ready
  /-- WAIT_KEY: the cycle of a WAIT_FOR_KEY is suspended until a key goes down (R105). -/
  | waitKey
deriving DecidableEq, Repr

/-- The fault kinds of R200. -/
inductive FaultKind where
  | unknownOpcode
  | stackOverflow
  | stackUnderflow
  | outOfBoundsMemoryAccess
deriving DecidableEq, Repr

/-- The output events of R214. -/
inductive Event where
  /-- `FrameReady(FB)` (R107): the framebuffer handed to the display sink. -/
  | frameReady (fb : Vector PixelRow Config.fbHeight)
  /-- `Beep()` (R212). -/
  | beep
  /-- `UnknownOpcodeReport(pc, op)` (R201). -/
  | unknownOpcodeReport (pc op : Word)
  /-- `FaultReport(kind, pc, op, addr)` (R206). -/
  | faultReport (kind : BitVec 3) (pc op addr : Word)
deriving DecidableEq, Repr

/-- Memory: the cells that are not 0, by rising address (R25; the canonical form is `Memory.wf` of Machine/Ops.lean). -/
abbrev Memory := List Host.Cell

/-- The state of the core between two steps. -/
structure State where
  /-- `V[0..15]` (R21); `V[15]` is the flag register (R22). -/
  v : Vector Byte Config.numRegs
  /-- The index register `I` (R23). -/
  i : Word
  /-- The program counter (R24). -/
  pc : Word
  /-- `MEM[0..4095]` (R25). -/
  mem : Memory
  /-- `STACK[0..15]` (R26). -/
  stack : Vector Word Config.stackCapacity
  /-- `SP`, the number of live stack entries, 0..16 (R26). -/
  sp : Fin (Config.stackCapacity + 1)
  /-- `FB`: cell `x + 64*y` is bit `x` of row `y` (R27; log entry 26). -/
  fb : Vector PixelRow Config.fbHeight
  /-- `DIRTY` (R28). -/
  dirty : Bool
  /-- `DT`, the delay timer (R29). -/
  dt : Byte
  /-- `ST`, the sound timer (R29). -/
  st : Byte
  /-- `KEYS`: bit `k` is the snapshot of key `k` (R30). -/
  keys : BitVec 16
  /-- `PHASE` (R31). -/
  phase : Phase
  /-- `WAIT_REG`: the `X` of the WAIT_FOR_KEY that waits (R31). -/
  waitReg : Nibble
  /-- `HALTED` (R32). -/
  halted : Bool
  /-- `ERR_KIND`, a code of R200 (R32). -/
  errKind : BitVec 3
  /-- `ERR_PC` (R32). -/
  errPc : Word
  /-- `ERR_OP` (R32). -/
  errOp : Word
  /-- `ERR_ADDR` (R32). -/
  errAddr : Word
  /-- `UNK_SEEN`, sticky (R32, R201). -/
  unkSeen : Bool
  /-- `UNK_PC` (R32). -/
  unkPc : Word
  /-- `UNK_OP` (R32). -/
  unkOp : Word
  /-- `PENDING_TICKS` (R33). -/
  pendingTicks : Nat
  /-- The MODEL's own: the inputs of the steps to come, the next first (log entry 1). Past the end of the list the
  inputs are the free values `Config.freeInput`. -/
  inputs : List StepInput
  /-- The MODEL's own: how many steps have taken their inputs (log entry 1). -/
  draws : Nat
  /-- The MODEL's own: the output events emitted so far, oldest first (log entry 7). -/
  events : List Event
deriving DecidableEq, Repr

/-- Why a step stops with a fault. -/
inductive Fault where
  /-- Raised by a step from a state with `HALTED` = 1, and by nothing else: no cycle starts from there, only reset
  leaves it (R100, R108; 93_implementation_defined U18). Safe: nothing is claimed of a state that never changes. -/
  | halted
deriving DecidableEq, Repr

/-- Why a step is refused. -/
inductive Refusal where
  /-- Raised by an arm of `exec` whose instruction has no meaning yet. Safe. No arm raises it: every instruction of
  the table is modelled. -/
  | notModelled (mnemonic : String)
deriving DecidableEq, Repr

/-- The state after reset and before the loader runs (R35, R240). The last three fields are the model's own
(log entry 2). -/
def State.reset : State where
  v := Vector.replicate Config.numRegs 0#8
  i := 0#16
  pc := 0x200#16
  mem := []
  stack := Vector.replicate Config.stackCapacity 0#16
  sp := 0
  fb := Vector.replicate Config.fbHeight 0#64
  dirty := false
  dt := 0#8
  st := 0#8
  keys := 0#16
  phase := .ready
  waitReg := 0#4
  halted := false
  errKind := 0#3
  errPc := 0#16
  errOp := 0#16
  errAddr := 0#16
  unkSeen := false
  unkPc := 0#16
  unkOp := 0#16
  pendingTicks := 0
  inputs := []
  draws := 0
  events := []

end Sys2Proof.Machine
end

