-- ==== Sys2Proof/Machine/Ops.lean ====
section
/-! DEFINITION. The shared operations over memory, registers, the stack, the framebuffer, the program counter and the
outside, and TAKING A FAULT (R206), the one entry every fatal fault goes through. -/

namespace Sys2Proof.Machine

/-- What running an instruction, or a step, answers. -/
abbrev Result := Host.Outcome State Fault Refusal

/-! ## Memory (R50 to R57) -/

/-- What an address that memory does not list reads as: the reset contents, 0 (R35, R54, R56). -/
def Memory.unlisted : Byte := 0#8

/-- The byte at an address. -/
def Memory.get : Memory → Nat → Byte
  | [], _ => Memory.unlisted
  | (b, x) :: m, a => if b = a then x else Memory.get m a

/-- Memory with one byte written. The canonical form is kept: writing `Memory.unlisted` removes the entry. -/
def Memory.set : Memory → Nat → Byte → Memory
  | [], a, x => if x = Memory.unlisted then [] else [(a, x)]
  | (b, y) :: m, a, x =>
    if a < b then
      if x = Memory.unlisted then (b, y) :: m else (a, x) :: (b, y) :: m
    else if a = b then
      if x = Memory.unlisted then m else (a, x) :: m
    else (b, y) :: Memory.set m a x

/-- The canonical form from an address up: rising addresses, none below `lo`, none outside memory (R25), no entry that
equals what an unlisted address reads as. -/
def Memory.wfFrom : Nat → Memory → Bool
  | _, [] => true
  | lo, (a, x) :: m =>
    decide (lo ≤ a) && decide (a < Config.memorySize) && decide (x ≠ Memory.unlisted) && Memory.wfFrom (a + 1) m

/-- The canonical form. -/
def Memory.wf (m : Memory) : Bool := Memory.wfFrom 0 m

/-- The `n` bytes from an address up (R52: ascending order). -/
def Memory.readBytes (m : Memory) : Nat → Nat → List Byte
  | _, 0 => []
  | a, n + 1 => m.get a :: Memory.readBytes m (a + 1) n

/-- Memory with a list of bytes written from an address up (R52: ascending order). -/
def Memory.writeBytes : Memory → Nat → List Byte → Memory
  | m, _, [] => m
  | m, a, x :: xs => Memory.writeBytes (Memory.set m a x) (a + 1) xs

/-- The byte at an address, in a state. -/
def State.byte (s : State) (a : Nat) : Byte := Memory.get s.mem a

/-- The state with the memory replaced. -/
def State.setMem (s : State) (m : Memory) : State := { s with mem := m }

/-- An access of `n` bytes from `base` has a byte outside memory (R55): none has when `n` is 0. Addresses are unbounded
naturals (the spec's D33, log entry 17). -/
def outOfRange (base n : Nat) : Bool := decide (0 < n) && decide (Config.memorySize < base + n)

/-- The offending address of an access from `base`: `max(base, 4096)` (R55, R204; the spec's D18, log entry 17). -/
def offendingAddress (base : Word) : Word := BitVec.ofNat 16 (max base.toNat Config.memorySize)

/-! ## Registers (R21, R23, R24) -/

/-- `V[x]`. -/
def State.reg (s : State) (x : Nibble) : Byte := s.v[x.toNat]'x.isLt

/-- `V[x] <- b`. -/
def State.setReg (s : State) (x : Nibble) (b : Byte) : State := { s with v := s.v.set x.toNat b x.isLt }

/-- The number of the flag register (R22). -/
def regF : Nibble := 15#4

/-- `I <- w`. -/
def State.setIndex (s : State) (w : Word) : State := { s with i := w }

/-- `pc <- target`. -/
def State.setPc (s : State) (target : Word) : State := { s with pc := target }

/-- `pc <- pc + n`: 2 for fallthrough, 4 for a skip taken (R24, R103). -/
def State.advance (s : State) (n : Word) : State := s.setPc (s.pc + n)

/-- The pc update of a conditional skip (R123 to R126, R180, R181). -/
def State.skipIf (s : State) (taken : Bool) : State := s.advance (if taken then 4#16 else 2#16)

/-- The end of an instruction that writes a result and then a flag (R111: the result first, the flag second, so with
`X` = 15 the flag stays). -/
def State.setRegFlag (s : State) (x : Nibble) (result flag : Byte) : State :=
  (s.setReg x result).setReg regF flag

/-! ## The outside (R112, R214; log entry 1) -/

/-- The inputs of this step: the next listed record, or the free one. -/
def State.input (s : State) : StepInput :=
  match s.inputs with
  | [] => Config.freeInput s.draws
  | r :: _ => r

/-- The step has used its inputs. -/
def State.consumeInput (s : State) : State := { s with inputs := s.inputs.tail, draws := s.draws + 1 }

/-- An output event (R214). -/
def State.emit (s : State) (e : Event) : State := { s with events := s.events ++ [e] }

/-! ## Faults (R200 to R208)

There is no return from a fault and no handler (R207): what leaves HALTED is reset, `State.hostReset` of
Machine/Loader.lean. -/

/-- The codes of R200 (the spec's D17). -/
def FaultKind.code : FaultKind → BitVec 3
  | .unknownOpcode => 1#3
  | .stackOverflow => 2#3
  | .stackUnderflow => 3#3
  | .outOfBoundsMemoryAccess => 4#3

/-- Fatal fault entry, `raise K(addr, pc, op)` of R206: the status record, `HALTED`, the event, and nothing else.
`ERR_PC` is the `pc` of the faulting cycle, which has not moved (R110). -/
def State.raise (s : State) (kind : FaultKind) (addr op : Word) : State :=
  { s with
    errKind := kind.code
    errPc := s.pc
    errOp := op
    errAddr := addr
    halted := true
    events := s.events ++ [.faultReport kind.code s.pc op addr] }

/-- The end of an instruction that accesses `n` bytes from `I`: the bounds check of the whole range comes first (R55,
R110), and only without a fault is the state `t` the result. -/
def State.accessAtIndex (s : State) (n : Nat) (op : Word) (t : State) : Result :=
  .next (if outOfRange s.i.toNat n then s.raise .outOfBoundsMemoryAccess (offendingAddress s.i) op else t)

/-! ## The stack (R26) -/

/-- Push: `STACK[SP] <- w; SP <- SP + 1`. -/
def State.push (s : State) (w : Word) (room : s.sp.val < Config.stackCapacity) : State :=
  { s with
    stack := s.stack.set s.sp.val w room
    sp := ⟨s.sp.val + 1, Nat.succ_lt_succ room⟩ }

/-- The entry a pop gives: `STACK[SP - 1]`. -/
def State.top (s : State) (live : 0 < s.sp.val) : Word :=
  s.stack[s.sp.val - 1]'(Nat.lt_of_lt_of_le (Nat.sub_lt live Nat.one_pos) (Nat.le_of_lt_succ s.sp.isLt))

/-- `SP <- SP - 1`; the popped cell keeps its value (R26). -/
def State.dropTop (s : State) : State :=
  { s with sp := ⟨s.sp.val - 1, Nat.lt_of_le_of_lt (Nat.sub_le _ _) s.sp.isLt⟩ }

/-! ## Block moves between registers and memory (R164, R165) -/

/-- `V[0]`, ..., `V[x]`, in that order. -/
def State.regsUpTo (s : State) (x : Nibble) : List Byte := s.v.toList.take (x.toNat + 1)

/-- The register file with `V[r] <- MEM[base + r]` done for the first `k` registers. -/
def Memory.loadInto (m : Memory) (base : Nat) : Nat → Vector Byte Config.numRegs → Vector Byte Config.numRegs
  | 0, v => v
  | k + 1, v => (Memory.loadInto m base k v).setIfInBounds k (m.get (base + k))

/-- `V[r] <- MEM[base + r]` for `r` in 0..x, every other register unchanged. -/
def State.loadRegsFrom (s : State) (base : Nat) (x : Nibble) : State :=
  { s with v := Memory.loadInto s.mem base (x.toNat + 1) s.v }

/-! ## The framebuffer (R27, R170 to R175) -/

/-- Cell `(x, y)` of a framebuffer: column `x` of row `y`, that is `FB[x + 64*y]`. -/
def cellAt (fb : Vector PixelRow Config.fbHeight) (x y : Nat) : Bool := (fb.getD y 0#64).getLsbD x

/-- `FB[i]`, by the index of R27. -/
def State.cell (s : State) (i : Nat) : Bool := cellAt s.fb (i % Config.fbWidth) (i / Config.fbWidth)

/-- The 2048 cells in index order, as the display sink consumes them (R107, R214). -/
def fbCells (fb : Vector PixelRow Config.fbHeight) : List Bool :=
  fb.toList.flatMap fun row => (List.range Config.fbWidth).map row.getLsbD

/-- The framebuffer with every cell 0 (R170). -/
def blankFb : Vector PixelRow Config.fbHeight := Vector.replicate Config.fbHeight 0#64

/-- A framebuffer being drawn on and whether a cell has gone from 1 to 0 so far (R171). -/
structure Canvas where
  fb : Vector PixelRow Config.fbHeight
  collision : Bool
deriving DecidableEq, Repr

/-- One set pixel of a sprite on cell `(x, y)`: note a collision if the cell is 1, then invert the cell (R171). -/
def Canvas.plot (p : Canvas) (x y : Nat) : Canvas :=
  { fb := p.fb.setIfInBounds y (p.fb.getD y 0#64 ^^^ (1#64 <<< x))
    collision := p.collision || cellAt p.fb x y }

/-- The pixels of one sprite row from column `c` up, `k` of them: bit `7 - c` of the row is column `c` (R172), which
falls on column `(ox + c) mod 64` (R173). A 0 bit leaves its cell alone. -/
def Canvas.blitRow (b : Byte) (ox y : Nat) : Nat → Nat → Canvas → Canvas
  | 0, _, p => p
  | k + 1, c, p =>
    Canvas.blitRow b ox y k (c + 1)
      (if b.getLsbD (7 - c) then p.plot ((ox + c) % Config.fbWidth) y else p)

/-- The rows of a sprite, top first, from row `r` up: row `r` falls on row `(oy + r) mod 32` (R171, R173). -/
def Canvas.blit (ox oy : Nat) : List Byte → Nat → Canvas → Canvas
  | [], _, p => p
  | b :: rest, r, p =>
    Canvas.blit ox oy rest (r + 1) (Canvas.blitRow b ox ((oy + r) % Config.fbHeight) 8 0 p)

end Sys2Proof.Machine
end

