-- ==== Sys2Proof/Machine/Flags.lean ====
section
/-! DEFINITION. The flag computations of R22, each over the operands of the pre-state (R111). -/

namespace Sys2Proof.Machine

/-- The value 0 or 1 a flag-writing instruction gives `V[F]` (R22). -/
def flagByte (f : Bool) : Byte := if f then 1#8 else 0#8

/-- ADD_REG: the unsigned sum, not truncated, is above 255 (R146). -/
def carryFlag (a b : Byte) : Byte := flagByte (decide (255 < a.toNat + b.toNat))

/-- SUB and SUBN: 0 if the subtrahend is above the minuend, else 1 (R147, R149). -/
def notBorrowFlag (minuend subtrahend : Byte) : Byte := flagByte (!decide (minuend.toNat < subtrahend.toNat))

/-- SHIFT_RIGHT: bit 0 of the old value (R148). -/
def rightFlag (a : Byte) : Byte := flagByte (a.getLsbD 0)

/-- SHIFT_LEFT: bit 7 of the old value (R150). -/
def leftFlag (a : Byte) : Byte := flagByte (a.getLsbD 7)

/-- DRAW: whether a pixel went from 1 to 0 (R171). -/
def collisionFlag (p : Canvas) : Byte := flagByte p.collision

end Sys2Proof.Machine
end

