-- ==== Sys2Proof/Machine/Alu.lean ====
section
/-! DEFINITION. Register, ALU and flag instructions (42_alu, R140 to R153). Operands come from the pre-state, the result
is written before the flag (R111; log entry 15). None of them faults. -/

namespace Sys2Proof.Machine

/-- SET_CONST (R140). -/
def execSetConst (x : Nibble) (nn : Byte) (s : State) : Result := .next ((s.setReg x nn).advance 2#16)

/-- ADD_CONST (R141): modulo 256, no flag. -/
def execAddConst (x : Nibble) (nn : Byte) (s : State) : Result := .next ((s.setReg x (s.reg x + nn)).advance 2#16)

/-- SET_REG (R142). -/
def execSetReg (x y : Nibble) (s : State) : Result := .next ((s.setReg x (s.reg y)).advance 2#16)

/-- OR (R143; conflict C2: the name decides the operator). -/
def execOr (x y : Nibble) (s : State) : Result := .next ((s.setReg x (s.reg x ||| s.reg y)).advance 2#16)

/-- AND (R144). -/
def execAnd (x y : Nibble) (s : State) : Result := .next ((s.setReg x (s.reg x &&& s.reg y)).advance 2#16)

/-- XOR (R145). -/
def execXor (x y : Nibble) (s : State) : Result := .next ((s.setReg x (s.reg x ^^^ s.reg y)).advance 2#16)

/-- ADD_REG (R146). -/
def execAddReg (x y : Nibble) (s : State) : Result :=
  .next ((s.setRegFlag x (s.reg x + s.reg y) (carryFlag (s.reg x) (s.reg y))).advance 2#16)

/-- SUB (R147): `V[X] - V[Y]`. -/
def execSub (x y : Nibble) (s : State) : Result :=
  .next ((s.setRegFlag x (s.reg x - s.reg y) (notBorrowFlag (s.reg x) (s.reg y))).advance 2#16)

/-- SHIFT_RIGHT (R148): `Y` is neither read nor written (the spec's D9). -/
def execShiftRight (x : Nibble) (s : State) : Result :=
  .next ((s.setRegFlag x (s.reg x >>> 1) (rightFlag (s.reg x))).advance 2#16)

/-- SUBN (R149): `V[Y] - V[X]`. -/
def execSubn (x y : Nibble) (s : State) : Result :=
  .next ((s.setRegFlag x (s.reg y - s.reg x) (notBorrowFlag (s.reg y) (s.reg x))).advance 2#16)

/-- SHIFT_LEFT (R150): `Y` is neither read nor written (the spec's D9). -/
def execShiftLeft (x : Nibble) (s : State) : Result :=
  .next ((s.setRegFlag x (s.reg x <<< 1) (leftFlag (s.reg x))).advance 2#16)

/-- RAND (R151): the byte comes from the outside, any value (U6). -/
def execRand (x : Nibble) (nn : Byte) (s : State) : Result := .next ((s.setReg x (s.input.rand &&& nn)).advance 2#16)

end Sys2Proof.Machine
end

