-- ==== Sys2Proof/Syntax.lean ====
section
/-! DEFINITION. The 34 instructions of R84, one constructor per row of spec/opcode_table.json, in the table's order.
A field the decoder ignores (R75, R79, R148, R150) is kept as `ign`, so that the word an instruction came from can be
rebuilt: a fault records it (R206). No meaning reads `ign` for anything else. -/

namespace Sys2Proof

inductive Instr where
  /-- CLS, `0··0` (R170); `ign` is bits 11:4. -/
  | cls (ign : BitVec 8)
  /-- RETURN, `0··E` (R120); `ign` is bits 11:4. -/
  | ret (ign : BitVec 8)
  /-- JUMP NNN, `1NNN` (R121). -/
  | jump (nnn : Addr12)
  /-- CALL NNN, `2NNN` (R122). -/
  | call (nnn : Addr12)
  /-- SKIP_EQ_CONST VX,NN, `3XNN` (R123). -/
  | skipEqConst (x : Nibble) (nn : Byte)
  /-- SKIP_NEQ_CONST VX,NN, `4XNN` (R124). -/
  | skipNeqConst (x : Nibble) (nn : Byte)
  /-- SKIP_EQ_REG VX,VY, `5XY·` (R125); `ign` is bits 3:0. -/
  | skipEqReg (x y : Nibble) (ign : Nibble)
  /-- SET_CONST VX,NN, `6XNN` (R140). -/
  | setConst (x : Nibble) (nn : Byte)
  /-- ADD_CONST VX,NN, `7XNN` (R141). -/
  | addConst (x : Nibble) (nn : Byte)
  /-- SET_REG VX,VY, `8XY0` (R142). -/
  | setReg (x y : Nibble)
  /-- OR VX,VY, `8XY1` (R143). -/
  | orReg (x y : Nibble)
  /-- AND VX,VY, `8XY2` (R144). -/
  | andReg (x y : Nibble)
  /-- XOR VX,VY, `8XY3` (R145). -/
  | xorReg (x y : Nibble)
  /-- ADD_REG VX,VY, `8XY4` (R146). -/
  | addReg (x y : Nibble)
  /-- SUB VX,VY, `8XY5` (R147). -/
  | sub (x y : Nibble)
  /-- SHIFT_RIGHT VX, `8X·6` (R148); `ign` is the unused `Y`, bits 7:4. -/
  | shiftRight (x : Nibble) (ign : Nibble)
  /-- SUBN VX,VY, `8XY7` (R149). -/
  | subn (x y : Nibble)
  /-- SHIFT_LEFT VX, `8X·E` (R150); `ign` is the unused `Y`, bits 7:4. -/
  | shiftLeft (x : Nibble) (ign : Nibble)
  /-- SKIP_NEQ_REG VX,VY, `9XY·` (R126); `ign` is bits 3:0. -/
  | skipNeqReg (x y : Nibble) (ign : Nibble)
  /-- SET_INDEX NNN, `ANNN` (R160). -/
  | setIndex (nnn : Addr12)
  /-- JUMP_OFFSET NNN, `BNNN` (R127). -/
  | jumpOffset (nnn : Addr12)
  /-- RAND VX,NN, `CXNN` (R151). -/
  | rand (x : Nibble) (nn : Byte)
  /-- DRAW VX,VY,N, `DXYN` (R171). -/
  | draw (x y n : Nibble)
  /-- KEY_PRESSED VX, `EX9E` (R180). -/
  | keyPressed (x : Nibble)
  /-- KEY_NOT_PRESSED VX, `EXA1` (R181). -/
  | keyNotPressed (x : Nibble)
  /-- GET_TIMER VX, `FX07` (R182). -/
  | getTimer (x : Nibble)
  /-- WAIT_FOR_KEY VX, `FX0A` (R183). -/
  | waitForKey (x : Nibble)
  /-- SET_DELAY VX, `FX15` (R184). -/
  | setDelay (x : Nibble)
  /-- SET_SOUND VX, `FX18` (R185). -/
  | setSound (x : Nibble)
  /-- ADD_TO_INDEX VX, `FX1E` (R161). -/
  | addToIndex (x : Nibble)
  /-- FONT_CHAR VX, `FX29` (R162). -/
  | fontChar (x : Nibble)
  /-- BCD VX, `FX33` (R163). -/
  | bcd (x : Nibble)
  /-- STORE_REGS VX, `FX55` (R164). -/
  | storeRegs (x : Nibble)
  /-- LOAD_REGS VX, `FX65` (R165). -/
  | loadRegs (x : Nibble)
deriving DecidableEq, Repr

end Sys2Proof
end

