-- ==== Sys2Proof/Decode.lean ====
section
/-! DEFINITION. The decoder of R85, total on every word and every byte list, and after it the encoder, the rows of the
opcode table and the assembler spelling. The opcode map is the spec's decisions D1 to D5 (log entries 13 and 14). -/

namespace Sys2Proof

/-! ## Fields of a word (R71) -/

/-- `G`, bits 15:12. -/
def fieldG (w : Word) : Nibble := w.extractLsb' 12 4

/-- `X`, bits 11:8. -/
def fieldX (w : Word) : Nibble := w.extractLsb' 8 4

/-- `Y`, bits 7:4. -/
def fieldY (w : Word) : Nibble := w.extractLsb' 4 4

/-- `N`, bits 3:0. -/
def fieldN (w : Word) : Nibble := w.extractLsb' 0 4

/-- `NN`, bits 7:0. -/
def fieldNN (w : Word) : Byte := w.extractLsb' 0 8

/-- `NNN`, bits 11:0. -/
def fieldNNN (w : Word) : Addr12 := w.extractLsb' 0 12

/-- Bits 11:4, which group 0 ignores (R75). -/
def fieldIgn (w : Word) : BitVec 8 := w.extractLsb' 4 8

/-! ## Decoding -/

/-- Group 0 (R75): the low nibble selects. -/
def decode0 (w : Word) : Option Instr :=
  match (fieldN w).toNat with
  | 0x0 => some (.cls (fieldIgn w))
  | 0xE => some (.ret (fieldIgn w))
  | _ => none

/-- Group 8 (R76): the low nibble selects. -/
def decode8 (w : Word) : Option Instr :=
  match (fieldN w).toNat with
  | 0x0 => some (.setReg (fieldX w) (fieldY w))
  | 0x1 => some (.orReg (fieldX w) (fieldY w))
  | 0x2 => some (.andReg (fieldX w) (fieldY w))
  | 0x3 => some (.xorReg (fieldX w) (fieldY w))
  | 0x4 => some (.addReg (fieldX w) (fieldY w))
  | 0x5 => some (.sub (fieldX w) (fieldY w))
  | 0x6 => some (.shiftRight (fieldX w) (fieldY w))
  | 0x7 => some (.subn (fieldX w) (fieldY w))
  | 0xE => some (.shiftLeft (fieldX w) (fieldY w))
  | _ => none

/-- Group E (R77): the low byte selects. -/
def decodeE (w : Word) : Option Instr :=
  if fieldNN w = 0x9E#8 then some (.keyPressed (fieldX w))
  else if fieldNN w = 0xA1#8 then some (.keyNotPressed (fieldX w))
  else none

/-- Group F (R78): the low byte selects. -/
def decodeF (w : Word) : Option Instr :=
  if fieldNN w = 0x07#8 then some (.getTimer (fieldX w))
  else if fieldNN w = 0x0A#8 then some (.waitForKey (fieldX w))
  else if fieldNN w = 0x15#8 then some (.setDelay (fieldX w))
  else if fieldNN w = 0x18#8 then some (.setSound (fieldX w))
  else if fieldNN w = 0x1E#8 then some (.addToIndex (fieldX w))
  else if fieldNN w = 0x29#8 then some (.fontChar (fieldX w))
  else if fieldNN w = 0x33#8 then some (.bcd (fieldX w))
  else if fieldNN w = 0x55#8 then some (.storeRegs (fieldX w))
  else if fieldNN w = 0x65#8 then some (.loadRegs (fieldX w))
  else none

/-- The decode function of R85; `none` is the spec's Unknown (R80). -/
def decode (w : Word) : Option Instr :=
  match (fieldG w).toNat with
  | 0x0 => decode0 w
  | 0x1 => some (.jump (fieldNNN w))
  | 0x2 => some (.call (fieldNNN w))
  | 0x3 => some (.skipEqConst (fieldX w) (fieldNN w))
  | 0x4 => some (.skipNeqConst (fieldX w) (fieldNN w))
  | 0x5 => some (.skipEqReg (fieldX w) (fieldY w) (fieldN w))
  | 0x6 => some (.setConst (fieldX w) (fieldNN w))
  | 0x7 => some (.addConst (fieldX w) (fieldNN w))
  | 0x8 => decode8 w
  | 0x9 => some (.skipNeqReg (fieldX w) (fieldY w) (fieldN w))
  | 0xA => some (.setIndex (fieldNNN w))
  | 0xB => some (.jumpOffset (fieldNNN w))
  | 0xC => some (.rand (fieldX w) (fieldNN w))
  | 0xD => some (.draw (fieldX w) (fieldY w) (fieldN w))
  | 0xE => decodeE w
  | 0xF => decodeF w
  | _ => none

/-- The word of two bytes, the one at the lower address first (R52: big-endian). -/
def wordOfBytes (hi lo : Byte) : Word := hi ++ lo

/-- The byte of a word at the lower address (R52). -/
def highByte (w : Word) : Byte := w.extractLsb' 8 8

/-- The byte of a word at the higher address (R52). -/
def lowByte (w : Word) : Byte := w.extractLsb' 0 8

/-- Why a byte list does not begin with an instruction. -/
inductive DecodeError where
  /-- Fewer than two bytes (R70). -/
  | truncated
  /-- The word matches no row: the spec's UnknownOpcode (R80). -/
  | unknownOpcode (opcode : Word)
deriving DecidableEq, Repr

/-- Decode the instruction at the head of a byte list and give the bytes after it. -/
def decodeBytes : List Byte → Except DecodeError (Instr × List Byte)
  | hi :: lo :: rest =>
    match decode (wordOfBytes hi lo) with
    | some i => .ok (i, rest)
    | none => .error (.unknownOpcode (wordOfBytes hi lo))
  | _ => .error .truncated

/-- The word whose bits below `nbits` are those of `w` and whose other bits are 0, as the opcode table numbers them:
one 16-bit word, bit 0 its least significant (R6). -/
def tableWord (nbits w : Nat) : Word := BitVec.ofNat 16 (w % 2 ^ nbits)

/-- The instruction the decoder reads from the bytes of a table word, laid out big-endian (R52). -/
def decodeTableWord (nbits w : Nat) : Option Instr :=
  match decodeBytes [highByte (tableWord nbits w), lowByte (tableWord nbits w)] with
  | .ok (i, _) => some i
  | .error _ => none

/-! ## Encoding (the formats of R72 and the patterns of R74 to R79) -/

/-- Formats `Z`, `XY` and `XYN`: four nibbles, the top one first. -/
def packXY (g x y n : Nibble) : Word := g ++ x ++ y ++ n

/-- Format `Z` with the ignored bits 11:4 as one field. -/
def packZ (g : Nibble) (ign : BitVec 8) (n : Nibble) : Word := g ++ ign ++ n

/-- Formats `XK` and `XS`: group, `X` and a low byte. -/
def packXK (g x : Nibble) (nn : Byte) : Word := g ++ x ++ nn

/-- Format `A`: group and a 12-bit address. -/
def packA (g : Nibble) (nnn : Addr12) : Word := g ++ nnn

/-- The word of an instruction. -/
def encode : Instr → Word
  | .cls ign => packZ 0x0 ign 0x0
  | .ret ign => packZ 0x0 ign 0xE
  | .jump nnn => packA 0x1 nnn
  | .call nnn => packA 0x2 nnn
  | .skipEqConst x nn => packXK 0x3 x nn
  | .skipNeqConst x nn => packXK 0x4 x nn
  | .skipEqReg x y ign => packXY 0x5 x y ign
  | .setConst x nn => packXK 0x6 x nn
  | .addConst x nn => packXK 0x7 x nn
  | .setReg x y => packXY 0x8 x y 0x0
  | .orReg x y => packXY 0x8 x y 0x1
  | .andReg x y => packXY 0x8 x y 0x2
  | .xorReg x y => packXY 0x8 x y 0x3
  | .addReg x y => packXY 0x8 x y 0x4
  | .sub x y => packXY 0x8 x y 0x5
  | .shiftRight x ign => packXY 0x8 x ign 0x6
  | .subn x y => packXY 0x8 x y 0x7
  | .shiftLeft x ign => packXY 0x8 x ign 0xE
  | .skipNeqReg x y ign => packXY 0x9 x y ign
  | .setIndex nnn => packA 0xA nnn
  | .jumpOffset nnn => packA 0xB nnn
  | .rand x nn => packXK 0xC x nn
  | .draw x y n => packXY 0xD x y n
  | .keyPressed x => packXK 0xE x 0x9E
  | .keyNotPressed x => packXK 0xE x 0xA1
  | .getTimer x => packXK 0xF x 0x07
  | .waitForKey x => packXK 0xF x 0x0A
  | .setDelay x => packXK 0xF x 0x15
  | .setSound x => packXK 0xF x 0x18
  | .addToIndex x => packXK 0xF x 0x1E
  | .fontChar x => packXK 0xF x 0x29
  | .bcd x => packXK 0xF x 0x33
  | .storeRegs x => packXK 0xF x 0x55
  | .loadRegs x => packXK 0xF x 0x65

/-- The two bytes of an instruction as they lie in memory (R52, R70). -/
def encodeBytes (i : Instr) : List Byte := [highByte (encode i), lowByte (encode i)]

/-! ## The rows of the opcode table -/

/-- A row of spec/opcode_table.json: a word `w` decodes to it exactly when `w &&& mask = pattern`. -/
structure OpcodeRow where
  mnemonic : String
  mask : Word
  pattern : Word
deriving DecidableEq, Repr

/-- The row an instruction stands for. -/
def Instr.row : Instr → OpcodeRow
  | .cls _ => ⟨"CLS", 0xF00F, 0x0000⟩
  | .ret _ => ⟨"RETURN", 0xF00F, 0x000E⟩
  | .jump _ => ⟨"JUMP", 0xF000, 0x1000⟩
  | .call _ => ⟨"CALL", 0xF000, 0x2000⟩
  | .skipEqConst _ _ => ⟨"SKIP_EQ_CONST", 0xF000, 0x3000⟩
  | .skipNeqConst _ _ => ⟨"SKIP_NEQ_CONST", 0xF000, 0x4000⟩
  | .skipEqReg _ _ _ => ⟨"SKIP_EQ_REG", 0xF000, 0x5000⟩
  | .setConst _ _ => ⟨"SET_CONST", 0xF000, 0x6000⟩
  | .addConst _ _ => ⟨"ADD_CONST", 0xF000, 0x7000⟩
  | .setReg _ _ => ⟨"SET_REG", 0xF00F, 0x8000⟩
  | .orReg _ _ => ⟨"OR", 0xF00F, 0x8001⟩
  | .andReg _ _ => ⟨"AND", 0xF00F, 0x8002⟩
  | .xorReg _ _ => ⟨"XOR", 0xF00F, 0x8003⟩
  | .addReg _ _ => ⟨"ADD_REG", 0xF00F, 0x8004⟩
  | .sub _ _ => ⟨"SUB", 0xF00F, 0x8005⟩
  | .shiftRight _ _ => ⟨"SHIFT_RIGHT", 0xF00F, 0x8006⟩
  | .subn _ _ => ⟨"SUBN", 0xF00F, 0x8007⟩
  | .shiftLeft _ _ => ⟨"SHIFT_LEFT", 0xF00F, 0x800E⟩
  | .skipNeqReg _ _ _ => ⟨"SKIP_NEQ_REG", 0xF000, 0x9000⟩
  | .setIndex _ => ⟨"SET_INDEX", 0xF000, 0xA000⟩
  | .jumpOffset _ => ⟨"JUMP_OFFSET", 0xF000, 0xB000⟩
  | .rand _ _ => ⟨"RAND", 0xF000, 0xC000⟩
  | .draw _ _ _ => ⟨"DRAW", 0xF000, 0xD000⟩
  | .keyPressed _ => ⟨"KEY_PRESSED", 0xF0FF, 0xE09E⟩
  | .keyNotPressed _ => ⟨"KEY_NOT_PRESSED", 0xF0FF, 0xE0A1⟩
  | .getTimer _ => ⟨"GET_TIMER", 0xF0FF, 0xF007⟩
  | .waitForKey _ => ⟨"WAIT_FOR_KEY", 0xF0FF, 0xF00A⟩
  | .setDelay _ => ⟨"SET_DELAY", 0xF0FF, 0xF015⟩
  | .setSound _ => ⟨"SET_SOUND", 0xF0FF, 0xF018⟩
  | .addToIndex _ => ⟨"ADD_TO_INDEX", 0xF0FF, 0xF01E⟩
  | .fontChar _ => ⟨"FONT_CHAR", 0xF0FF, 0xF029⟩
  | .bcd _ => ⟨"BCD", 0xF0FF, 0xF033⟩
  | .storeRegs _ => ⟨"STORE_REGS", 0xF0FF, 0xF055⟩
  | .loadRegs _ => ⟨"LOAD_REGS", 0xF0FF, 0xF065⟩

/-- One instruction of each row of groups 0 to 7, operands 0, in the table's order. -/
def rowSamplesLow : List Instr :=
  [.cls 0#8, .ret 0#8, .jump 0#12, .call 0#12, .skipEqConst 0#4 0#8, .skipNeqConst 0#4 0#8, .skipEqReg 0#4 0#4 0#4,
   .setConst 0#4 0#8, .addConst 0#4 0#8]

/-- The same for group 8. -/
def rowSamples8 : List Instr :=
  [.setReg 0#4 0#4, .orReg 0#4 0#4, .andReg 0#4 0#4, .xorReg 0#4 0#4, .addReg 0#4 0#4, .sub 0#4 0#4,
   .shiftRight 0#4 0#4, .subn 0#4 0#4, .shiftLeft 0#4 0#4]

/-- The same for groups 9 to F. -/
def rowSamplesHigh : List Instr :=
  [.skipNeqReg 0#4 0#4 0#4, .setIndex 0#12, .jumpOffset 0#12, .rand 0#4 0#8, .draw 0#4 0#4 0#4, .keyPressed 0#4,
   .keyNotPressed 0#4, .getTimer 0#4, .waitForKey 0#4, .setDelay 0#4, .setSound 0#4, .addToIndex 0#4, .fontChar 0#4,
   .bcd 0#4, .storeRegs 0#4, .loadRegs 0#4]

/-- The 34 rows of the opcode table (R84). -/
def opcodeTable : List OpcodeRow :=
  rowSamplesLow.map Instr.row ++ rowSamples8.map Instr.row ++ rowSamplesHigh.map Instr.row

/-! ## Assembler spelling (R82, R83; the spec's decision D30) -/

/-- `V0` to `VF`. -/
def regText (x : Nibble) : String := "V" ++ String.singleton (Nat.digitChar x.toNat).toUpper

/-- A constant, in decimal. -/
def constText (n : Nat) : String := toString n

/-- The operands of an instruction, in the source's order, as an assembler line writes them. -/
def Instr.operandTexts : Instr → List String
  | .cls _ => []
  | .ret _ => []
  | .jump nnn => [constText nnn.toNat]
  | .call nnn => [constText nnn.toNat]
  | .skipEqConst x nn => [regText x, constText nn.toNat]
  | .skipNeqConst x nn => [regText x, constText nn.toNat]
  | .skipEqReg x y _ => [regText x, regText y]
  | .setConst x nn => [regText x, constText nn.toNat]
  | .addConst x nn => [regText x, constText nn.toNat]
  | .setReg x y => [regText x, regText y]
  | .orReg x y => [regText x, regText y]
  | .andReg x y => [regText x, regText y]
  | .xorReg x y => [regText x, regText y]
  | .addReg x y => [regText x, regText y]
  | .sub x y => [regText x, regText y]
  | .shiftRight x _ => [regText x]
  | .subn x y => [regText x, regText y]
  | .shiftLeft x _ => [regText x]
  | .skipNeqReg x y _ => [regText x, regText y]
  | .setIndex nnn => [constText nnn.toNat]
  | .jumpOffset nnn => [constText nnn.toNat]
  | .rand x nn => [regText x, constText nn.toNat]
  | .draw x y n => [regText x, regText y, constText n.toNat]
  | .keyPressed x => [regText x]
  | .keyNotPressed x => [regText x]
  | .getTimer x => [regText x]
  | .waitForKey x => [regText x]
  | .setDelay x => [regText x]
  | .setSound x => [regText x]
  | .addToIndex x => [regText x]
  | .fontChar x => [regText x]
  | .bcd x => [regText x]
  | .storeRegs x => [regText x]
  | .loadRegs x => [regText x]

/-- The line an assembler reads as this instruction: the mnemonic in capitals, one space, the operands separated by
commas. -/
def Instr.asmText (i : Instr) : String :=
  match i.operandTexts with
  | [] => i.row.mnemonic
  | ops => i.row.mnemonic ++ " " ++ ",".intercalate ops

/-- The directives of R83 and the bytes each places at the current address. -/
inductive Directive where
  /-- `DW 0xhhhh`: a word, big-endian. -/
  | dw (w : Word)
  /-- `DB 0xhh`: one byte. -/
  | db (b : Byte)
deriving DecidableEq, Repr

/-- The bytes a directive places. -/
def Directive.bytes : Directive → List Byte
  | .dw w => [highByte w, lowByte w]
  | .db b => [b]

end Sys2Proof
end

