-- ==== Sys2Proof/Machine/Operands.lean ====
section
/-! DEFINITION. The operand forms: what an instruction makes of a register or of `I` before it computes (R73, R162, R163,
R171, R180). Register operands are `State.reg`; constants and addresses are the fields of the word as they stand. -/

namespace Sys2Proof.Machine

/-- `NNN` zero-extended to 16 bits (R73, R121, R160). -/
def address (nnn : Addr12) : Word := nnn.setWidth 16

/-- The key a register names: its low nibble (R180, R181; the spec's D13, log entry 20). -/
def keyIndex (b : Byte) : Nat := b.toNat % 16

/-- Whether the key a register names is down in a snapshot (R180). -/
def keyDown (keys : BitVec 16) (b : Byte) : Bool := keys.getLsbD (keyIndex b)

/-- The address of the glyph of a register's low nibble: `0x50 + 5*c` (R162; the spec's D12, log entry 20). -/
def glyphAddress (b : Byte) : Word := BitVec.ofNat 16 (Config.fontBase + Config.glyphLen * (b.toNat % 16))

/-- The three decimal digits of a byte, the hundreds first (R163). -/
def bcdDigits (b : Byte) : List Byte :=
  [BitVec.ofNat 8 (b.toNat / 100), BitVec.ofNat 8 (b.toNat / 10 % 10), BitVec.ofNat 8 (b.toNat % 10)]

/-- The origin column of a sprite (R171, R173). -/
def originX (b : Byte) : Nat := b.toNat % Config.fbWidth

/-- The origin row of a sprite (R171, R173). -/
def originY (b : Byte) : Nat := b.toNat % Config.fbHeight

/-- The `n` bytes of the sprite at `I` (R172). -/
def State.sprite (s : State) (n : Nibble) : List Byte := Memory.readBytes s.mem s.i.toNat n.toNat

/-- The target of JUMP_OFFSET: `NNN + V[0]`, not masked to 12 bits (R127). -/
def State.offsetTarget (s : State) (nnn : Addr12) : Word := address nnn + (s.reg 0#4).setWidth 16

end Sys2Proof.Machine
end

