-- ==== Sys2Proof/Machine/Control.lean ====
section
/-! DEFINITION. Control transfer (41_control_transfer, R120 to R128). A target outside memory is not checked here: the
next FETCH faults (R101). -/

namespace Sys2Proof.Machine

/-- RETURN (R120): underflow at `SP` = 0, else `pc` is exactly the popped value. -/
def execRet (ign : BitVec 8) (s : State) : Result :=
  .next (if live : 0 < s.sp.val then s.dropTop.setPc (s.top live)
    else s.raise .stackUnderflow 0#16 (encode (.ret ign)))

/-- JUMP (R121). -/
def execJump (nnn : Addr12) (s : State) : Result := .next (s.setPc (address nnn))

/-- CALL (R122): overflow at a full stack, else the address after the CALL is pushed. -/
def execCall (nnn : Addr12) (s : State) : Result :=
  .next (if room : s.sp.val < Config.stackCapacity then (s.push (s.pc + 2#16) room).setPc (address nnn)
    else s.raise .stackOverflow 0#16 (encode (.call nnn)))

/-- SKIP_EQ_CONST (R123). -/
def execSkipEqConst (x : Nibble) (nn : Byte) (s : State) : Result := .next (s.skipIf (s.reg x == nn))

/-- SKIP_NEQ_CONST (R124). -/
def execSkipNeqConst (x : Nibble) (nn : Byte) (s : State) : Result := .next (s.skipIf (s.reg x != nn))

/-- SKIP_EQ_REG (R125). -/
def execSkipEqReg (x y : Nibble) (s : State) : Result := .next (s.skipIf (s.reg x == s.reg y))

/-- SKIP_NEQ_REG (R126). -/
def execSkipNeqReg (x y : Nibble) (s : State) : Result := .next (s.skipIf (s.reg x != s.reg y))

/-- JUMP_OFFSET (R127): the offset is always `V[0]`. -/
def execJumpOffset (nnn : Addr12) (s : State) : Result := .next (s.setPc (s.offsetTarget nnn))

end Sys2Proof.Machine
end

