-- ==== Sys2Proof/Machine/Display.lean ====
section
/-! DEFINITION. Display instructions (44_display, R170 to R175). -/

namespace Sys2Proof.Machine

/-- The framebuffer replaced and marked dirty, whether or not a cell changed (R28). -/
def State.setFb (s : State) (fb : Vector PixelRow Config.fbHeight) : State := { s with fb := fb, dirty := true }

/-- CLS (R170). -/
def execCls (s : State) : Result := .next ((s.setFb blankFb).advance 2#16)

/-- The canvas after the sprite of a DRAW, with everything read from the pre-state (R171). -/
def State.drawn (s : State) (x y n : Nibble) : Canvas :=
  Canvas.blit (originX (s.reg x)) (originY (s.reg y)) (s.sprite n) 0 { fb := s.fb, collision := false }

/-- DRAW (R171): `V[F]` is written on every DRAW; with `N` = 0 nothing is read or drawn (R174). -/
def execDraw (x y n : Nibble) (s : State) : Result :=
  s.accessAtIndex n.toNat (encode (.draw x y n))
    (((s.setFb (s.drawn x y n).fb).setReg regF (collisionFlag (s.drawn x y n))).advance 2#16)

end Sys2Proof.Machine
end

