-- ==== Sys2Proof/Machine/Index.lean ====
section
/-! DEFINITION. Index register and memory instructions (43_index_memory, R160 to R165). `I` is never changed by an
access; the bounds of the whole range are checked first (R55, R110). -/

namespace Sys2Proof.Machine

/-- SET_INDEX (R160). -/
def execSetIndex (nnn : Addr12) (s : State) : Result := .next ((s.setIndex (address nnn)).advance 2#16)

/-- ADD_TO_INDEX (R161): modulo 65536, not masked to 12 bits (the spec's D11, log entry 19), no flag. -/
def execAddToIndex (x : Nibble) (s : State) : Result :=
  .next ((s.setIndex (s.i + (s.reg x).setWidth 16)).advance 2#16)

/-- FONT_CHAR (R162). -/
def execFontChar (x : Nibble) (s : State) : Result := .next ((s.setIndex (glyphAddress (s.reg x))).advance 2#16)

/-- BCD (R163): three digits at `I`, `I + 1`, `I + 2`. -/
def execBcd (x : Nibble) (s : State) : Result :=
  s.accessAtIndex 3 (encode (.bcd x))
    ((s.setMem (Memory.writeBytes s.mem s.i.toNat (bcdDigits (s.reg x)))).advance 2#16)

/-- STORE_REGS (R164): `V[0]` to `V[X]` inclusive at `I` up. -/
def execStoreRegs (x : Nibble) (s : State) : Result :=
  s.accessAtIndex (x.toNat + 1) (encode (.storeRegs x))
    ((s.setMem (Memory.writeBytes s.mem s.i.toNat (s.regsUpTo x))).advance 2#16)

/-- LOAD_REGS (R165): `V[0]` to `V[X]` inclusive from `I` up. -/
def execLoadRegs (x : Nibble) (s : State) : Result :=
  s.accessAtIndex (x.toNat + 1) (encode (.loadRegs x)) ((s.loadRegsFrom s.i.toNat x).advance 2#16)

end Sys2Proof.Machine
end

