-- ==== Sys2Proof/Machine/KeysTimers.lean ====
section
/-! DEFINITION. Key and timer instructions (45_keys_timers, R180 to R185). None of them faults. -/

namespace Sys2Proof.Machine

/-- Copy the 16 key levels of the input source into `KEYS` (R30, R180). -/
def State.refreshKeys (s : State) : State := { s with keys := s.input.keys }

/-- KEY_PRESSED (R180): the refresh comes before the test. -/
def execKeyPressed (x : Nibble) (s : State) : Result :=
  .next (s.refreshKeys.skipIf (keyDown s.refreshKeys.keys (s.reg x)))

/-- KEY_NOT_PRESSED (R181). -/
def execKeyNotPressed (x : Nibble) (s : State) : Result :=
  .next (s.refreshKeys.skipIf (!keyDown s.refreshKeys.keys (s.reg x)))

/-- GET_TIMER (R182). -/
def execGetTimer (x : Nibble) (s : State) : Result := .next ((s.setReg x s.dt).advance 2#16)

/-- WAIT_FOR_KEY, its EXECUTE phase (R183, R105): the wait begins, `pc` stays. What ends it is `State.wakeOnKey` of
Machine/Cycle.lean. -/
def execWaitForKey (x : Nibble) (s : State) : Result := .next { s with waitReg := x, phase := .waitKey }

/-- SET_DELAY (R184). -/
def execSetDelay (x : Nibble) (s : State) : Result := .next (State.advance { s with dt := s.reg x } 2#16)

/-- SET_SOUND (R185): the write itself never beeps. -/
def execSetSound (x : Nibble) (s : State) : Result := .next (State.advance { s with st := s.reg x } 2#16)

end Sys2Proof.Machine
end

