-- ==== Sys2Proof/Machine/Dispatch.lean ====
section
/-! DEFINITION. The EXECUTE phase (R103): one arm per instruction. -/

namespace Sys2Proof.Machine

def exec (i : Instr) (s : State) : Host.Outcome State Fault Refusal :=
  match i with
  | .cls _ => Sys2Proof.Machine.execCls s
  | .ret ign => Sys2Proof.Machine.execRet ign s
  | .jump nnn => Sys2Proof.Machine.execJump nnn s
  | .call nnn => Sys2Proof.Machine.execCall nnn s
  | .skipEqConst x nn => Sys2Proof.Machine.execSkipEqConst x nn s
  | .skipNeqConst x nn => Sys2Proof.Machine.execSkipNeqConst x nn s
  | .skipEqReg x y _ => Sys2Proof.Machine.execSkipEqReg x y s
  | .setConst x nn => Sys2Proof.Machine.execSetConst x nn s
  | .addConst x nn => Sys2Proof.Machine.execAddConst x nn s
  | .setReg x y => Sys2Proof.Machine.execSetReg x y s
  | .orReg x y => Sys2Proof.Machine.execOr x y s
  | .andReg x y => Sys2Proof.Machine.execAnd x y s
  | .xorReg x y => Sys2Proof.Machine.execXor x y s
  | .addReg x y => Sys2Proof.Machine.execAddReg x y s
  | .sub x y => Sys2Proof.Machine.execSub x y s
  | .shiftRight x _ => Sys2Proof.Machine.execShiftRight x s
  | .subn x y => Sys2Proof.Machine.execSubn x y s
  | .shiftLeft x _ => Sys2Proof.Machine.execShiftLeft x s
  | .skipNeqReg x y _ => Sys2Proof.Machine.execSkipNeqReg x y s
  | .setIndex nnn => Sys2Proof.Machine.execSetIndex nnn s
  | .jumpOffset nnn => Sys2Proof.Machine.execJumpOffset nnn s
  | .rand x nn => Sys2Proof.Machine.execRand x nn s
  | .draw x y n => Sys2Proof.Machine.execDraw x y n s
  | .keyPressed x => Sys2Proof.Machine.execKeyPressed x s
  | .keyNotPressed x => Sys2Proof.Machine.execKeyNotPressed x s
  | .getTimer x => Sys2Proof.Machine.execGetTimer x s
  | .waitForKey x => Sys2Proof.Machine.execWaitForKey x s
  | .setDelay x => Sys2Proof.Machine.execSetDelay x s
  | .setSound x => Sys2Proof.Machine.execSetSound x s
  | .addToIndex x => Sys2Proof.Machine.execAddToIndex x s
  | .fontChar x => Sys2Proof.Machine.execFontChar x s
  | .bcd x => Sys2Proof.Machine.execBcd x s
  | .storeRegs x => Sys2Proof.Machine.execStoreRegs x s
  | .loadRegs x => Sys2Proof.Machine.execLoadRegs x s

end Sys2Proof.Machine
end

