-- ==== Sys2Proof/Machine/Cycle.lean ====
section
/-! DEFINITION. The cycle driver (40_cycle): FETCH, the unknown opcode, WAIT_KEY, TIMER_TICK, back to READY, and the cycle
as one function (R112). -/

namespace Sys2Proof.Machine

/-! ## FETCH (R101) -/

/-- The word at `pc`, big-endian (R52); none when one of its two bytes is outside memory, that is `pc` > 4094. -/
def State.fetch (s : State) : Option Word :=
  if outOfRange s.pc.toNat 2 then none
  else some (wordOfBytes (s.byte s.pc.toNat) (s.byte (s.pc.toNat + 1)))

/-- The fault of a FETCH outside memory (R101, R204): no opcode was fetched, so `ERR_OP` is 0. -/
def State.raiseFetch (s : State) : State := s.raise .outOfBoundsMemoryAccess (offendingAddress s.pc) 0#16

/-! ## The unknown opcode (R104, R201) -/

/-- `report UnknownOpcode(pc, opcode); pc <- pc + 2`. -/
def State.reportUnknown (s : State) (op : Word) : State :=
  (State.emit { s with unkSeen := true, unkPc := s.pc, unkOp := op } (.unknownOpcodeReport s.pc op)).advance 2#16

/-! ## WAIT_KEY (R105) -/

/-- A key-down in WAIT_KEY: the index is loaded, `pc` moves on, the wait ends. -/
def State.wake (s : State) (k : Nibble) : State :=
  { ((s.setReg s.waitReg (k.setWidth 8)).advance 2#16) with phase := .ready }

/-- WAIT_KEY during one step: it ends when a key-down arrives, and nothing changes when none does. -/
def State.wakeOnKey (s : State) : State :=
  match s.input.keyDown with
  | none => s
  | some k => s.wake k

/-! ## TIMER_TICK (R106, R211, R212) -/

/-- The ticks that elapse during this step join the pending ones, in any phase but HALTED (R33, R213). -/
def State.countTicks (s : State) : State := { s with pendingTicks := s.pendingTicks + s.input.ticks }

/-- One tick, `TimerTick()` as R211 writes it. -/
def State.tick (s : State) : State :=
  let s1 := if s.dt = 0#8 then s else { s with dt := s.dt - 1#8 }
  if s1.st = 0#8 then s1
  else
    let s2 := { s1 with st := s1.st - 1#8 }
    if s2.st = 0#8 then s2.emit .beep else s2

/-- The draining of R106 as R106 writes it: `TimerTick()`, `k` times. `State.timerTick` is its closed form. -/
def State.tickTimes : Nat → State → State
  | 0, s => s
  | k + 1, s => State.tickTimes k s.tick

/-- A timer after `k` ticks: it stays at 0 once there (R29). -/
def countDown (t : Byte) (k : Nat) : Byte := if t = 0#8 then 0#8 else BitVec.ofNat 8 (t.toNat - k)

/-- Whether `k` ticks take the sound timer from 1 to 0 (R212): at most one of them does. -/
def beepsWithin (t : Byte) (k : Nat) : Bool := if t = 0#8 then false else decide (t.toNat ≤ k)

/-- TIMER_TICK (R106): every pending tick is applied and the count cleared. Written in closed form, so that a state whose
timers are 0 can be computed whatever the number of ticks (log entry 5). -/
def State.timerTick (s : State) : State :=
  { s with
    dt := countDown s.dt s.pendingTicks
    st := countDown s.st s.pendingTicks
    pendingTicks := 0
    events := if beepsWithin s.st s.pendingTicks then s.events ++ [.beep] else s.events }

/-! ## Back to READY (R107) -/

/-- `FrameReady` and a clean mark, if the frame is dirty. -/
def State.frameReady (s : State) : State :=
  { s with
    events := if s.dirty then s.events ++ [.frameReady s.fb] else s.events
    dirty := false }

/-- What follows EXECUTE in a step. A fatal fault has ended the cycle: no TIMER_TICK, no FrameReady (R108). In WAIT_KEY
nothing changes until a key goes down (R105). Otherwise TIMER_TICK and READY. -/
def State.settle (s : State) : State :=
  if s.halted then s
  else
    match s.phase with
    | .waitKey => s
    | .ready => s.timerTick.frameReady

/-- The end of a step: the ticks that elapsed during it are pending whatever its phase, also when it has just halted the
core, since it did not begin in HALTED (R213; log entry 4); then `State.settle`, and the step's inputs are used up. -/
def State.endCycle (s : State) : State := s.countTicks.settle.consumeInput

/-- `State.endCycle` after an instruction that answered a next state. -/
def endResult : Result → Result
  | .next s => .next s.endCycle
  | .fault r => .fault r
  | .refused r => .refused r

/-! ## One step (R100, R112) -/

/-- A cycle that begins in READY: FETCH, DECODE, EXECUTE and what follows. -/
def cycle (s : State) : Result :=
  match s.fetch with
  | none => .next s.raiseFetch.endCycle
  | some w =>
    match decode w with
    | none => .next (s.reportUnknown w).endCycle
    | some i => endResult (exec i s)

/-- One step: no cycle starts from HALTED (R100, R108); a suspended WAIT_FOR_KEY goes on; READY begins a cycle. -/
def driverStep (s : State) : Result :=
  if s.halted then .fault .halted
  else
    match s.phase with
    | .waitKey => .next s.wakeOnKey.endCycle
    | .ready => cycle s

end Sys2Proof.Machine
end

