-- ==== Sys2Proof/Machine/Step.lean ====
section
/-! DEFINITION. The step, and a state with a given instruction where the step fetches. -/

namespace Sys2Proof.Machine

/-- One step of the core (R100, R112). -/
def step (s : State) : Host.Outcome State Fault Refusal := driverStep s

/-- `s` with the word `w` of the opcode table's numbering stored, big-endian, at `pc`, and the core at READY and not
halted, so that the next step fetches it. The bits above `nbits` are 0. Where `pc` > 4094 there is no place to fetch from
(R101), and the write is left out. -/
def State.withFetchWord (s : State) (nbits w : Nat) : State :=
  { s with
    mem :=
      if outOfRange s.pc.toNat 2 then s.mem
      else Memory.writeBytes s.mem s.pc.toNat [highByte (tableWord nbits w), lowByte (tableWord nbits w)]
    phase := .ready
    halted := false }

end Sys2Proof.Machine
end

