-- ==== Sys2Proof/WellFormed.lean ====
section
/-! DEFINITION. What is well formed: an instruction as an assembler writes it, a ROM and a font the loader accepts.
The operand fields need no check: their types hold exactly the values an encoding admits (R73). -/

namespace Sys2Proof

/-- The instruction is one an assembler emits (R82): the bits the decoder ignores hold their canonical value
(`00E0`, `00EE`: R75; low nibble 0 of `5XY0` and `9XY0`: R79; `Y` = 0 of the shifts: R148, R150). An instruction that
is not well formed is executed like any other (R75, R79): no meaning and no decoding asks for this (log entry 27). -/
def Instr.wellFormed : Instr → Bool
  | .cls ign => ign == 0x0E
  | .ret ign => ign == 0x0E
  | .jump _ => true
  | .call _ => true
  | .skipEqConst _ _ => true
  | .skipNeqConst _ _ => true
  | .skipEqReg _ _ ign => ign == 0
  | .setConst _ _ => true
  | .addConst _ _ => true
  | .setReg _ _ => true
  | .orReg _ _ => true
  | .andReg _ _ => true
  | .xorReg _ _ => true
  | .addReg _ _ => true
  | .sub _ _ => true
  | .shiftRight _ ign => ign == 0
  | .subn _ _ => true
  | .shiftLeft _ ign => ign == 0
  | .skipNeqReg _ _ ign => ign == 0
  | .setIndex _ => true
  | .jumpOffset _ => true
  | .rand _ _ => true
  | .draw _ _ _ => true
  | .keyPressed _ => true
  | .keyNotPressed _ => true
  | .getTimer _ => true
  | .waitForKey _ => true
  | .setDelay _ => true
  | .setSound _ => true
  | .addToIndex _ => true
  | .fontChar _ => true
  | .bcd _ => true
  | .storeRegs _ => true
  | .loadRegs _ => true

/-- A ROM the loader accepts: at most `MAX_ROM_LEN` bytes (R205, R242); the empty one is accepted (D35). -/
def romWellFormed (rom : List Byte) : Bool := rom.length ≤ Config.maxRomLen

/-- A font table: 80 bytes (R5, R242). -/
def fontWellFormed (font : List Byte) : Bool := font.length == Config.fontLen

end Sys2Proof
end

