-- ==== Sys2Proof/Machine/Loader.lean ====
section
/-! DEFINITION. What the host does between steps: reset (R240) and the loader (R205, R242). The step never does either
(log entry 9); a program comes to run by `State.boot` (log entry 8). -/

namespace Sys2Proof.Machine

/-- `reset`, which the host may assert at any time (R214): every piece of core state takes its value of R35. The outside
is not core state: the inputs to come and the events already emitted stay. -/
def State.hostReset (s : State) : State :=
  { State.reset with inputs := s.inputs, draws := s.draws, events := s.events }

/-- `load(addr, byte)`: the loader writes one byte of `MEM`, between reset and the first cycle only (R65, R214); an
address outside memory is none of `MEM` and nothing is written. -/
def State.load (s : State) (a : Nat) (b : Byte) : State :=
  if a < Config.memorySize then s.setMem (Memory.set s.mem a b) else s

/-- A run of loads from an address up. -/
def State.loadBytes : State → Nat → List Byte → State
  | s, _, [] => s
  | s, a, b :: rest => State.loadBytes (s.load a b) (a + 1) rest

/-- The loader's duties (R242): the 80 font bytes at 0x50 and the ROM at 0x200; none for an oversized ROM, which is
refused before the core runs (R205), or for a table that is no font. -/
def State.boot (font rom : List Byte) : Option State :=
  if fontWellFormed font && romWellFormed rom then
    some ((State.reset.loadBytes Config.fontBase font).loadBytes Config.romBase rom)
  else none

end Sys2Proof.Machine
end

