-- ==== Sys2Proof/Safety.lean ====
section
/-! DEFINITION. What claims about runs are stated in: the states the core can be in, what holds of all of them, and a run
that went cleanly. -/

namespace Sys2Proof.Machine

/-- The states of a core that the host treats as R218 says: it is booted with a font and a ROM that fits, then steps are
taken and reset may be asserted at any time, with another boot after it. -/
inductive Reachable : State → Prop where
  /-- Reset, before any load. -/
  | atReset : Reachable State.reset
  /-- Boot (R242), with the inputs the outside will supply. -/
  | booted (font rom : List Byte) (s : State) (inputs : List StepInput) (h : State.boot font rom = some s) :
      Reachable { s with inputs := inputs }
  /-- One step. -/
  | stepped (s t : State) (hs : Reachable s) (h : step s = .next t) : Reachable t
  /-- `reset` between two steps (R214, R240). -/
  | wasReset (s : State) (hs : Reachable s) : Reachable s.hostReset

/-- Where `pc` can be between two steps: at most 0x10FE (R24), and in memory during a wait (R105). -/
def State.pcBounded (s : State) : Prop :=
  s.pc.toNat ≤ 0x10FE ∧ (s.phase = .waitKey → s.pc.toNat ≤ 4094)

/-- Every stack cell holds an address a CALL can push: at most 4096 (R120, R122). -/
def State.stackBounded (s : State) : Prop := ∀ k : Fin Config.stackCapacity, s.stack[k].toNat ≤ 4096

/-- The status record agrees with itself (R32, R200, R207): a halted core has a fatal kind, a running one has an empty
error record, and no unknown opcode is recorded before one was seen. -/
def State.recordConsistent (s : State) : Prop :=
  (s.halted = true → s.errKind = FaultKind.stackOverflow.code ∨ s.errKind = FaultKind.stackUnderflow.code ∨
    s.errKind = FaultKind.outOfBoundsMemoryAccess.code) ∧
  (s.halted = false → s.errKind = 0#3 ∧ s.errPc = 0#16 ∧ s.errOp = 0#16 ∧ s.errAddr = 0#16) ∧
  (s.unkSeen = false → s.unkPc = 0#16 ∧ s.unkOp = 0#16)

/-- The invariant of the core between two steps. -/
structure Invariant (s : State) : Prop where
  /-- Memory is canonical and lies inside 0..4095 (R25). -/
  memory : Memory.wf s.mem = true
  /-- R24. -/
  pc : s.pcBounded
  /-- R26, R122. -/
  stack : s.stackBounded
  /-- `DIRTY` is 0 at every READY (R28). -/
  clean : s.dirty = false
  /-- No tick is pending at READY: TIMER_TICK has drained them (R106). In HALTED those that a fatal fault cut off may be
  (R108, R213). -/
  drained : s.halted = false → s.phase = .ready → s.pendingTicks = 0
  /-- R32. -/
  record : s.recordConsistent

/-- Whether a sprite of the bytes `rows` with its origin at column `ox`, row `oy` has a 1 bit on cell `(x, y)` (R171 to
R173): the cell is sprite column `c`, sprite row `r` of a sprite that wraps on both axes, and bit `7 - c` of row `r` is 1. -/
def spriteBit (rows : List Byte) (ox oy x y : Nat) : Bool :=
  decide ((x + Config.fbWidth - ox) % Config.fbWidth < 8) &&
    (rows.getD ((y + Config.fbHeight - oy) % Config.fbHeight) 0#8).getLsbD
      (7 - (x + Config.fbWidth - ox) % Config.fbWidth)

/-- A state of a run that went cleanly: no fatal fault and no unknown opcode (R201, U11). -/
def State.ranCleanly (s : State) : Bool := !s.halted && !s.unkSeen

end Sys2Proof.Machine
end

