-- ==== Sys2Proof/Certificates/Slice0/Obligations.lean ====
section
/-! DEFINITION. The statements for the provers. Each docstring names the rule of spec/ it formalises; where a clause rests
on a decision of the spec (D<n> of 92_eei_decisions) or on an entry of the assumption log, it says so. Where a statement
gives an encoding, the opcode pattern is the one the instruction's rule gives (R74 adopts the map by D1, D3, D5). -/

open Sys2Proof Sys2Proof.Machine

/-! ## Terms the statements use -/

/-- The state after the fatal fault entry of R206, written out: `kind` is the code of R200. -/
def Sys2Proof.Machine.State.faulted (s : State) (kind : BitVec 3) (addr op : Word) : State :=
  { s with
    errKind := kind
    errPc := s.pc
    errOp := op
    errAddr := addr
    halted := true
    events := s.events ++ [.faultReport kind s.pc op addr] }

/-- `max(base, 4096)` as a 16-bit address (R55, R204). -/
def Sys2Proof.Machine.lowestOutside (base : Word) : Word := BitVec.ofNat 16 (max base.toNat 4096)

/-- The registers an instruction may write: its destination, the registers LOAD_REGS loads, and `V[F]` for the six
instructions of R22. -/
def Sys2Proof.Instr.mayWriteReg : Instr → Nibble → Bool
  | .setConst x _, y => y == x
  | .addConst x _, y => y == x
  | .setReg x _, y => y == x
  | .orReg x _, y => y == x
  | .andReg x _, y => y == x
  | .xorReg x _, y => y == x
  | .addReg x _, y => y == x || y == 15#4
  | .sub x _, y => y == x || y == 15#4
  | .shiftRight x _, y => y == x || y == 15#4
  | .subn x _, y => y == x || y == 15#4
  | .shiftLeft x _, y => y == x || y == 15#4
  | .rand x _, y => y == x
  | .draw _ _ _, y => y == 15#4
  | .getTimer x, y => y == x
  | .loadRegs x, y => decide (y.toNat ≤ x.toNat)
  | _, _ => false

/-- Whether an instruction stores to address `a`: BCD to `I..I+2` (R163), STORE_REGS to `I..I+X` (R164), with the `I` of
the state it runs in; every other instruction stores nothing (R51). -/
def Sys2Proof.Instr.storesAt : Instr → State → Nat → Bool
  | .bcd _, s, a => decide (s.i.toNat ≤ a) && decide (a < s.i.toNat + 3)
  | .storeRegs x, s, a => decide (s.i.toNat ≤ a) && decide (a ≤ s.i.toNat + x.toNat)
  | _, _, _ => false

/-- Whether an event is `FrameReady`. -/
def Sys2Proof.Machine.Event.isFrameReady : Event → Bool
  | .frameReady _ => true
  | _ => false

/-- CLS and DRAW, the two instructions that write the framebuffer (R27). -/
def Sys2Proof.Instr.drawsFrame : Instr → Bool
  | .cls _ => true
  | .draw _ _ _ => true
  | _ => false

/-- Two states that differ in nothing but what depends on time: the timers, the pending ticks, the inputs to come and the
events. -/
def Sys2Proof.Machine.sameButTime (s t : State) : Prop :=
  t = { s with dt := t.dt, st := t.st, pendingTicks := t.pendingTicks, events := t.events, inputs := t.inputs,
               draws := t.draws }

/-! ## Encoding -/

/-- Words written out in the spec, one of each family, decode to the instruction they stand for (30_encoding lead
paragraph; R120 to R185). -/
def Obligations.WordsOfTheSpecDecode : Prop :=
  decode 0x6005#16 = some (.setConst 0#4 5#8) ∧ decode 0x610A#16 = some (.setConst 1#4 10#8) ∧
  decode 0x8014#16 = some (.addReg 0#4 1#4) ∧ decode 0x0000#16 = some (.cls 0x00#8) ∧
  decode 0x00E0#16 = some (.cls 0x0E#8) ∧ decode 0x00EE#16 = some (.ret 0x0E#8) ∧
  decode 0x220A#16 = some (.call 0x20A#12) ∧ decode 0xD011#16 = some (.draw 0#4 1#4 1#4) ∧
  decode 0xE29E#16 = some (.keyPressed 2#4) ∧ decode 0xF265#16 = some (.loadRegs 2#4) ∧
  decode 0x00E1#16 = none ∧ decode 0xFFFF#16 = none

/-- Decode and encode agree, for every instruction and every value of its fields (R70 to R79, R85; the map rests on D1
to D5, log entries 13 and 14). -/
def Obligations.DecodeOfEncodeIsTheInstruction : Prop :=
  ∀ i : Instr, decode (encode i) = some i ∧ decodeTableWord 16 (encode i).toNat = some i ∧
    decodeBytes (encodeBytes i) = .ok (i, [])

/-- No bit of a word is dropped by decoding (R71, R85; the ignored bits are kept by the model's choice, log entry 14). -/
def Obligations.EncodeOfDecodeIsTheWord : Prop :=
  ∀ (w : Word) (i : Instr), decode w = some i → encode i = w

/-- 30_encoding, lead paragraph: "A word `w` decodes to a row exactly when `(w & mask) == match`; no word matches two
rows" (the map rests on D1 to D5). -/
def Obligations.WordDecodesToARowExactlyWhenItMatches : Prop :=
  opcodeTable.length = 34 ∧
  (∀ (w : Word) (row : OpcodeRow), row ∈ opcodeTable →
    (w &&& row.mask = row.pattern ↔ ∃ i, decode w = some i ∧ i.row = row)) ∧
  ∀ (w : Word) (r r' : OpcodeRow), r ∈ opcodeTable → r' ∈ opcodeTable →
    w &&& r.mask = r.pattern → w &&& r'.mask = r'.pattern → r = r'

/-- R80: the words that match no row, group by group (the selectors rest on D2 and D3). -/
def Obligations.UnknownWordsAreExactlyThese : Prop :=
  ∀ w : Word, decode w = none ↔
    (fieldG w = 0x0#4 ∧ fieldN w ≠ 0x0#4 ∧ fieldN w ≠ 0xE#4) ∨
    (fieldG w = 0x8#4 ∧ (8#4 ≤ fieldN w ∧ fieldN w ≤ 0xD#4 ∨ fieldN w = 0xF#4)) ∨
    (fieldG w = 0xE#4 ∧ fieldNN w ∉ [0x9E#8, 0xA1#8]) ∨
    (fieldG w = 0xF#4 ∧
      fieldNN w ∉ [0x07#8, 0x0A#8, 0x15#8, 0x18#8, 0x1E#8, 0x29#8, 0x33#8, 0x55#8, 0x65#8])

/-! ## The cycle -/

/-- R101 to R103, R112: FETCH reads `MEM[pc] * 256 + MEM[pc+1]` at any `pc` up to 4094, even or odd (D19), DECODE,
EXECUTE. What `endCycle` does is EndOfCycleDrainsTicksAndReportsTheFrame. -/
def Obligations.StepRunsTheDecodedInstruction : Prop :=
  ∀ (s : State) (i : Instr), s.halted = false → s.phase = .ready → s.pc.toNat ≤ 4094 →
    decode (BitVec.ofNat 16 ((s.byte s.pc.toNat).toNat * 256 + (s.byte (s.pc.toNat + 1)).toNat)) = some i →
    step s = (match exec i s with
      | .next t => .next t.endCycle
      | .fault r => .fault r
      | .refused r => .refused r)

/-- R106, R107, R108, R211, R212, R213 (D21, D22, D23; the closed form is log entry 5, the moment at which ticks join
log entry 4, the last two fields are the model's own). -/
def Obligations.EndOfCycleDrainsTicksAndReportsTheFrame : Prop :=
  ∀ s : State,
    (s.halted = true →
      s.endCycle =
        { s with pendingTicks := s.pendingTicks + s.input.ticks, inputs := s.inputs.tail, draws := s.draws + 1 }) ∧
    (s.halted = false → s.phase = .waitKey →
      s.endCycle =
        { s with pendingTicks := s.pendingTicks + s.input.ticks, inputs := s.inputs.tail, draws := s.draws + 1 }) ∧
    (s.halted = false → s.phase = .ready →
      s.endCycle =
        { s with
          dt := BitVec.ofNat 8 (s.dt.toNat - (s.pendingTicks + s.input.ticks))
          st := BitVec.ofNat 8 (s.st.toNat - (s.pendingTicks + s.input.ticks))
          pendingTicks := 0
          events := s.events ++
            (if 0 < s.st.toNat ∧ s.st.toNat ≤ s.pendingTicks + s.input.ticks then [.beep] else []) ++
            (if s.dirty then [.frameReady s.fb] else [])
          dirty := false
          inputs := s.inputs.tail
          draws := s.draws + 1 })

/-- R106: "the phase applies every pending tick, one at a time, then clears the count" (D22; the closed form is log
entry 5). -/
def Obligations.DrainingIsOneTickAtATime : Prop :=
  ∀ s : State, s.timerTick = { State.tickTimes s.pendingTicks s with pendingTicks := 0 }

/-- R211, R212: "Decremented by exactly 1 per elapsed 1/60s interval while > 0"; "sound_timer reaching 0 from 1 fires
the beep side effect exactly once per such transition" (D31). -/
def Obligations.TicksCountDownAndBeepOnce : Prop :=
  ∀ (k : Nat) (s : State), State.tickTimes k s =
    { s with
      dt := BitVec.ofNat 8 (s.dt.toNat - k)
      st := BitVec.ofNat 8 (s.st.toNat - k)
      events := s.events ++ (if 0 < s.st.toNat ∧ s.st.toNat ≤ k then [.beep] else []) }

/-- R104, R201 (the register form is D20, the TIMER_TICK of such a cycle D36). -/
def Obligations.UnknownOpcodeIsARecordedNoOp : Prop :=
  ∀ (s : State) (w : Word), s.halted = false → s.phase = .ready → s.pc.toNat ≤ 4094 →
    BitVec.ofNat 16 ((s.byte s.pc.toNat).toNat * 256 + (s.byte (s.pc.toNat + 1)).toNat) = w → decode w = none →
    step s = .next (State.endCycle
      { s with
        unkSeen := true
        unkPc := s.pc
        unkOp := w
        events := s.events ++ [.unknownOpcodeReport s.pc w]
        pc := s.pc + 2#16 })

/-- R101, R204, R206, R108, R213 (the reported address and opcode are D18, the moment at which ticks join log entry 4;
the last two fields are the model's own). -/
def Obligations.FetchOutsideMemoryHalts : Prop :=
  ∀ s : State, s.halted = false → s.phase = .ready → 4094 < s.pc.toNat →
    step s = .next
      { s.faulted 4#3 (lowestOutside s.pc) 0#16 with
        pendingTicks := s.pendingTicks + s.input.ticks
        inputs := s.inputs.tail
        draws := s.draws + 1 }

/-- R81, R100, R108, R200 (HALTED is terminal by D23; that a step from it answers a fault is U18 and log entry 6). -/
def Obligations.EveryStepAnswersUnlessHalted : Prop :=
  ∀ s : State, (s.halted = false → ∃ t, step s = .next t) ∧ (s.halted = true → step s = .fault .halted)

/-- R105, R106 (D22, D24; the last two fields are the model's own). -/
def Obligations.WaitHoldsUntilAKeyGoesDown : Prop :=
  ∀ s : State, s.halted = false → s.phase = .waitKey → s.input.keyDown = none →
    step s = .next
      { s with pendingTicks := s.pendingTicks + s.input.ticks, inputs := s.inputs.tail, draws := s.draws + 1 }

/-- R105, R106, R107, R183, R211, R212 (D21, D22, D24, D31; conflict C9; the last two fields are the model's own). -/
def Obligations.KeyDownEndsTheWait : Prop :=
  ∀ (s : State) (k : Nibble), s.halted = false → s.phase = .waitKey → s.input.keyDown = some k →
    ∃ t, step s = .next t ∧ (t.reg s.waitReg).toNat = k.toNat ∧ (∀ y, y ≠ s.waitReg → t.reg y = s.reg y) ∧
      t.pc = s.pc + 2#16 ∧ t.phase = .ready ∧ t.pendingTicks = 0 ∧
      t.dt.toNat = s.dt.toNat - (s.pendingTicks + s.input.ticks) ∧
      t.st.toNat = s.st.toNat - (s.pendingTicks + s.input.ticks) ∧
      t.events = s.events ++
        (if 0 < s.st.toNat ∧ s.st.toNat ≤ s.pendingTicks + s.input.ticks then [.beep] else []) ++
        (if s.dirty then [.frameReady s.fb] else []) ∧
      t = { s with v := t.v, pc := t.pc, phase := t.phase, dt := t.dt, st := t.st, pendingTicks := t.pendingTicks,
                   events := t.events, dirty := false, inputs := s.inputs.tail, draws := s.draws + 1 }

/-! ## Control transfer -/

/-- R120, R203 (the ignored bits are D2, log entry 14; the fault entry of R206 is D16 to D18, log entries 16, 17 and
31). -/
def Obligations.ReturnPopsThePc : Prop :=
  ∀ (ign : BitVec 8) (s : State),
    decode (0x0#4 ++ ign ++ 0xE#4) = some (.ret ign) ∧
    (0 < s.sp.val → ∃ t, exec (.ret ign) s = .next t ∧ t.sp.val = s.sp.val - 1 ∧
      s.stack[s.sp.val - 1]? = some t.pc ∧ t = { s with sp := t.sp, pc := t.pc }) ∧
    (s.sp.val = 0 → exec (.ret ign) s = .next (s.faulted 3#3 0#16 (0x0#4 ++ ign ++ 0xE#4)))

/-- R121. -/
def Obligations.JumpSetsThePc : Prop :=
  ∀ (nnn : Addr12) (s : State),
    decode (0x1#4 ++ nnn) = some (.jump nnn) ∧
    ∃ t, exec (.jump nnn) s = .next t ∧ t.pc.toNat = nnn.toNat ∧ t = { s with pc := t.pc }

/-- R122 (with the fault entry of R206; the capacity 16 is D6, log entry 11). -/
def Obligations.CallPushesTheNextAddress : Prop :=
  ∀ (nnn : Addr12) (s : State),
    decode (0x2#4 ++ nnn) = some (.call nnn) ∧
    (s.sp.val < 16 → ∃ t, exec (.call nnn) s = .next t ∧ t.stack[s.sp.val]? = some (s.pc + 2#16) ∧
      (∀ k : Fin 16, k.val ≠ s.sp.val → t.stack[k] = s.stack[k]) ∧ t.sp.val = s.sp.val + 1 ∧
      t.pc.toNat = nnn.toNat ∧ t = { s with stack := t.stack, sp := t.sp, pc := t.pc }) ∧
    (s.sp.val = 16 → exec (.call nnn) s = .next (s.faulted 2#3 0#16 (0x2#4 ++ nnn)))

/-- R120, S5: "Sequence CALL→RETURN: PC after RETURN equals (call-site address + 2); SP returns to its pre-CALL
depth". -/
def Obligations.ReturnComesBackAfterTheCall : Prop :=
  ∀ (nnn : Addr12) (ign : BitVec 8) (s : State), s.sp.val < 16 →
    ∃ t, exec (.call nnn) s = .next t ∧
      ∀ u : State, u.stack = t.stack → u.sp = t.sp →
        ∃ v, exec (.ret ign) u = .next v ∧ v.pc = s.pc + 2#16 ∧ v.sp = s.sp

/-- R123, R124. -/
def Obligations.SkipsCompareWithAConstant : Prop :=
  ∀ (x : Nibble) (nn : Byte) (s : State),
    decode (0x3#4 ++ x ++ nn) = some (.skipEqConst x nn) ∧ decode (0x4#4 ++ x ++ nn) = some (.skipNeqConst x nn) ∧
    exec (.skipEqConst x nn) s = .next { s with pc := if s.reg x = nn then s.pc + 4#16 else s.pc + 2#16 } ∧
    exec (.skipNeqConst x nn) s = .next { s with pc := if s.reg x = nn then s.pc + 2#16 else s.pc + 4#16 }

/-- R125, R126 (that the low nibble is ignored is D4, log entry 14). -/
def Obligations.SkipsCompareTwoRegisters : Prop :=
  ∀ (x y ign : Nibble) (s : State),
    decode (0x5#4 ++ x ++ y ++ ign) = some (.skipEqReg x y ign) ∧
    decode (0x9#4 ++ x ++ y ++ ign) = some (.skipNeqReg x y ign) ∧
    exec (.skipEqReg x y ign) s = .next { s with pc := if s.reg x = s.reg y then s.pc + 4#16 else s.pc + 2#16 } ∧
    exec (.skipNeqReg x y ign) s = .next { s with pc := if s.reg x = s.reg y then s.pc + 2#16 else s.pc + 4#16 }

/-- R127 (that the sum is not masked is the spec's inference in R127). -/
def Obligations.JumpOffsetAddsVZero : Prop :=
  ∀ (nnn : Addr12) (s : State),
    decode (0xB#4 ++ nnn) = some (.jumpOffset nnn) ∧
    ∃ t, exec (.jumpOffset nnn) s = .next t ∧ t.pc.toNat = nnn.toNat + (s.reg 0#4).toNat ∧ t = { s with pc := t.pc }

/-! ## Registers, ALU and flags -/

/-- R140. -/
def Obligations.SetConstLoadsTheConstant : Prop :=
  ∀ (x : Nibble) (nn : Byte) (s : State),
    decode (0x6#4 ++ x ++ nn) = some (.setConst x nn) ∧
    ∃ t, exec (.setConst x nn) s = .next t ∧ t.reg x = nn ∧ (∀ y, y ≠ x → t.reg y = s.reg y) ∧
      t.pc = s.pc + 2#16 ∧ t = { s with v := t.v, pc := t.pc }

/-- R141. -/
def Obligations.AddConstWrapsWithoutAFlag : Prop :=
  ∀ (x : Nibble) (nn : Byte) (s : State),
    decode (0x7#4 ++ x ++ nn) = some (.addConst x nn) ∧
    ∃ t, exec (.addConst x nn) s = .next t ∧ (t.reg x).toNat = ((s.reg x).toNat + nn.toNat) % 256 ∧
      (∀ y, y ≠ x → t.reg y = s.reg y) ∧
      t.pc = s.pc + 2#16 ∧ t = { s with v := t.v, pc := t.pc }

/-- R142. -/
def Obligations.SetRegCopiesTheRegister : Prop :=
  ∀ (x y : Nibble) (s : State),
    decode (0x8#4 ++ x ++ y ++ 0x0#4) = some (.setReg x y) ∧
    ∃ t, exec (.setReg x y) s = .next t ∧ t.reg x = s.reg y ∧ (∀ z, z ≠ x → t.reg z = s.reg z) ∧
      t.pc = s.pc + 2#16 ∧ t = { s with v := t.v, pc := t.pc }

/-- R143, R144, R145; that each name takes its own operator is the spec's resolution of conflict C2 (log entry 35). -/
def Obligations.BitwiseInstructionsCombineTwoRegisters : Prop :=
  ∀ (x y : Nibble) (s : State),
    (decode (0x8#4 ++ x ++ y ++ 0x1#4) = some (.orReg x y) ∧
      ∃ t, exec (.orReg x y) s = .next t ∧
        (∀ b, (t.reg x).getLsbD b = ((s.reg x).getLsbD b || (s.reg y).getLsbD b)) ∧
        (∀ z, z ≠ x → t.reg z = s.reg z) ∧ t.pc = s.pc + 2#16 ∧ t = { s with v := t.v, pc := t.pc }) ∧
    (decode (0x8#4 ++ x ++ y ++ 0x2#4) = some (.andReg x y) ∧
      ∃ t, exec (.andReg x y) s = .next t ∧
        (∀ b, (t.reg x).getLsbD b = ((s.reg x).getLsbD b && (s.reg y).getLsbD b)) ∧
        (∀ z, z ≠ x → t.reg z = s.reg z) ∧ t.pc = s.pc + 2#16 ∧ t = { s with v := t.v, pc := t.pc }) ∧
    (decode (0x8#4 ++ x ++ y ++ 0x3#4) = some (.xorReg x y) ∧
      ∃ t, exec (.xorReg x y) s = .next t ∧
        (∀ b, (t.reg x).getLsbD b = ((s.reg x).getLsbD b ^^ (s.reg y).getLsbD b)) ∧
        (∀ z, z ≠ x → t.reg z = s.reg z) ∧ t.pc = s.pc + 2#16 ∧ t = { s with v := t.v, pc := t.pc })

/-- R146; that operands come from the pre-state and the flag is written last also with `X` or `Y` = 15 is D8 (R111,
log entry 15). -/
def Obligations.AddRegAddsWithCarryOut : Prop :=
  ∀ (x y : Nibble) (s : State),
    decode (0x8#4 ++ x ++ y ++ 0x4#4) = some (.addReg x y) ∧
    ∃ t, exec (.addReg x y) s = .next t ∧
      (x ≠ 15#4 → (t.reg x).toNat = ((s.reg x).toNat + (s.reg y).toNat) % 256) ∧
      (t.reg 15#4).toNat = (if (s.reg x).toNat + (s.reg y).toNat > 255 then 1 else 0) ∧
      (∀ z, z ≠ x → z ≠ 15#4 → t.reg z = s.reg z) ∧
      t.pc = s.pc + 2#16 ∧ t = { s with v := t.v, pc := t.pc }

/-- R147, R149; `X` or `Y` = 15 is D8 (R111, log entry 15). -/
def Obligations.SubtractionsWrapAndFlagNotBorrow : Prop :=
  ∀ (x y : Nibble) (s : State),
    (decode (0x8#4 ++ x ++ y ++ 0x5#4) = some (.sub x y) ∧
      ∃ t, exec (.sub x y) s = .next t ∧
        (x ≠ 15#4 → ((t.reg x).toNat : Int) = ((s.reg x).toNat - (s.reg y).toNat : Int) % 256) ∧
        (t.reg 15#4).toNat = (if (s.reg y).toNat > (s.reg x).toNat then 0 else 1) ∧
        (∀ z, z ≠ x → z ≠ 15#4 → t.reg z = s.reg z) ∧ t.pc = s.pc + 2#16 ∧ t = { s with v := t.v, pc := t.pc }) ∧
    (decode (0x8#4 ++ x ++ y ++ 0x7#4) = some (.subn x y) ∧
      ∃ t, exec (.subn x y) s = .next t ∧
        (x ≠ 15#4 → ((t.reg x).toNat : Int) = ((s.reg y).toNat - (s.reg x).toNat : Int) % 256) ∧
        (t.reg 15#4).toNat = (if (s.reg x).toNat > (s.reg y).toNat then 0 else 1) ∧
        (∀ z, z ≠ x → z ≠ 15#4 → t.reg z = s.reg z) ∧ t.pc = s.pc + 2#16 ∧ t = { s with v := t.v, pc := t.pc })

/-- R148, R150 (one register only is D9; `X` = 15 is D8, log entry 15). -/
def Obligations.ShiftsMoveOneBitIntoTheFlag : Prop :=
  ∀ (x ign : Nibble) (s : State),
    (decode (0x8#4 ++ x ++ ign ++ 0x6#4) = some (.shiftRight x ign) ∧
      ∃ t, exec (.shiftRight x ign) s = .next t ∧
        (x ≠ 15#4 → (t.reg x).toNat = (s.reg x).toNat / 2) ∧ (t.reg 15#4).toNat = (s.reg x).toNat % 2 ∧
        (∀ z, z ≠ x → z ≠ 15#4 → t.reg z = s.reg z) ∧ t.pc = s.pc + 2#16 ∧ t = { s with v := t.v, pc := t.pc }) ∧
    (decode (0x8#4 ++ x ++ ign ++ 0xE#4) = some (.shiftLeft x ign) ∧
      ∃ t, exec (.shiftLeft x ign) s = .next t ∧
        (x ≠ 15#4 → (t.reg x).toNat = 2 * (s.reg x).toNat % 256) ∧ (t.reg 15#4).toNat = (s.reg x).toNat / 128 ∧
        (∀ z, z ≠ x → z ≠ 15#4 → t.reg z = s.reg z) ∧ t.pc = s.pc + 2#16 ∧ t = { s with v := t.v, pc := t.pc })

/-- R151 (the byte is an input, any value: D26, log entry 1). -/
def Obligations.RandMasksTheDrawnByte : Prop :=
  ∀ (x : Nibble) (nn r : Byte) (s : State),
    decode (0xC#4 ++ x ++ nn) = some (.rand x nn) ∧
    ∃ t, exec (.rand x nn) s = .next t ∧ (s.input.rand = r → t.reg x = r &&& nn) ∧
      (∀ b, nn.getLsbD b = false → (t.reg x).getLsbD b = false) ∧
      (∀ y, y ≠ x → t.reg y = s.reg y) ∧
      t.pc = s.pc + 2#16 ∧ t = { s with v := t.v, pc := t.pc }

/-! ## Index register and memory -/

/-- R160. -/
def Obligations.SetIndexLoadsTheAddress : Prop :=
  ∀ (nnn : Addr12) (s : State),
    decode (0xA#4 ++ nnn) = some (.setIndex nnn) ∧
    ∃ t, exec (.setIndex nnn) s = .next t ∧ t.i.toNat = nnn.toNat ∧ t.pc = s.pc + 2#16 ∧ t = { s with i := t.i, pc := t.pc }

/-- R161 (not masked: D11, log entry 19), R162 (the low nibble: D12, log entry 20). -/
def Obligations.IndexArithmeticHasNoFlag : Prop :=
  ∀ (x : Nibble) (s : State),
    (decode (0xF#4 ++ x ++ 0x1E#8) = some (.addToIndex x) ∧
      ∃ t, exec (.addToIndex x) s = .next t ∧ t.i.toNat = (s.i.toNat + (s.reg x).toNat) % 65536 ∧
        t.pc = s.pc + 2#16 ∧ t = { s with i := t.i, pc := t.pc }) ∧
    (decode (0xF#4 ++ x ++ 0x29#8) = some (.fontChar x) ∧
      ∃ t, exec (.fontChar x) s = .next t ∧ t.i.toNat = 0x50 + 5 * ((s.reg x).toNat % 16) ∧
        t.pc = s.pc + 2#16 ∧ t = { s with i := t.i, pc := t.pc })

/-- R163 (the fault entry of R206 is D16 to D18, log entries 16, 17 and 31; that memory is canonical is part of
Invariant, StepKeepsTheInvariant). -/
def Obligations.BcdStoresThreeDigits : Prop :=
  ∀ (x : Nibble) (s : State), Memory.wf s.mem = true →
    decode (0xF#4 ++ x ++ 0x33#8) = some (.bcd x) ∧
    (s.i.toNat + 2 ≤ 4095 → ∃ t, exec (.bcd x) s = .next t ∧
      (t.byte s.i.toNat).toNat = (s.reg x).toNat / 100 ∧
      (t.byte (s.i.toNat + 1)).toNat = (s.reg x).toNat / 10 % 10 ∧
      (t.byte (s.i.toNat + 2)).toNat = (s.reg x).toNat % 10 ∧
      (∀ a, a < s.i.toNat ∨ s.i.toNat + 2 < a → t.byte a = s.byte a) ∧
      t.pc = s.pc + 2#16 ∧ t = { s with mem := t.mem, pc := t.pc }) ∧
    (4095 < s.i.toNat + 2 →
      exec (.bcd x) s = .next (s.faulted 4#3 (lowestOutside s.i) (0xF#4 ++ x ++ 0x33#8)))

/-- R164 (the fault entry of R206 is D16 to D18, log entries 16, 17 and 31; that memory is canonical is part of
Invariant, StepKeepsTheInvariant). -/
def Obligations.StoreRegsStoresTheRange : Prop :=
  ∀ (x : Nibble) (s : State), Memory.wf s.mem = true →
    decode (0xF#4 ++ x ++ 0x55#8) = some (.storeRegs x) ∧
    (s.i.toNat + x.toNat ≤ 4095 → ∃ t, exec (.storeRegs x) s = .next t ∧
      (∀ r : Nibble, r.toNat ≤ x.toNat → t.byte (s.i.toNat + r.toNat) = s.reg r) ∧
      (∀ a, a < s.i.toNat ∨ s.i.toNat + x.toNat < a → t.byte a = s.byte a) ∧
      t.pc = s.pc + 2#16 ∧ t = { s with mem := t.mem, pc := t.pc }) ∧
    (4095 < s.i.toNat + x.toNat →
      exec (.storeRegs x) s = .next (s.faulted 4#3 (lowestOutside s.i) (0xF#4 ++ x ++ 0x55#8)))

/-- R165 (the fault entry of R206 is D16 to D18, log entries 16, 17 and 31). -/
def Obligations.LoadRegsLoadsTheRange : Prop :=
  ∀ (x : Nibble) (s : State),
    decode (0xF#4 ++ x ++ 0x65#8) = some (.loadRegs x) ∧
    (s.i.toNat + x.toNat ≤ 4095 → ∃ t, exec (.loadRegs x) s = .next t ∧
      (∀ r : Nibble, t.reg r = if r.toNat ≤ x.toNat then s.byte (s.i.toNat + r.toNat) else s.reg r) ∧
      t.pc = s.pc + 2#16 ∧ t = { s with v := t.v, pc := t.pc }) ∧
    (4095 < s.i.toNat + x.toNat →
      exec (.loadRegs x) s = .next (s.faulted 4#3 (lowestOutside s.i) (0xF#4 ++ x ++ 0x65#8)))

/-- R62 (an inference of the spec from R59 and R101), R52. -/
def Obligations.AStoreIsSeenByTheNextFetch : Prop :=
  ∀ (x r : Nibble) (s t u : State), Memory.wf s.mem = true → s.i.toNat + x.toNat ≤ 4095 →
    exec (.storeRegs x) s = .next t → u.mem = t.mem → r.toNat + 1 ≤ x.toNat → u.pc.toNat = s.i.toNat + r.toNat →
    u.fetch = some (s.reg r ++ s.reg (r + 1#4))

/-! ## Display -/

/-- R170 (that bits 11:4 are ignored is D2, log entry 14). -/
def Obligations.ClsBlanksTheFramebuffer : Prop :=
  ∀ (ign : BitVec 8) (s : State),
    decode (0x0#4 ++ ign ++ 0x0#4) = some (.cls ign) ∧
    ∃ t, exec (.cls ign) s = .next t ∧ (∀ i, i < 2048 → t.cell i = false) ∧ t.dirty = true ∧
      t.pc = s.pc + 2#16 ∧ t = { s with fb := t.fb, dirty := t.dirty, pc := t.pc }

/-- R171 to R174 (bit order D15, wrap D10, `N` = 0 D14: log entry 18; pre-state operands with `X` or `Y` = 15: D8). -/
def Obligations.DrawXorsTheSpriteAndFlagsCollision : Prop :=
  ∀ (x y n : Nibble) (s : State),
    decode (0xD#4 ++ x ++ y ++ n) = some (.draw x y n) ∧
    (n = 0#4 ∨ s.i.toNat + n.toNat - 1 ≤ 4095 → ∃ t, exec (.draw x y n) s = .next t ∧
      (∀ X Y, X < 64 → Y < 32 → t.cell (X + Y * 64) =
        (s.cell (X + Y * 64) ^^
          spriteBit (Memory.readBytes s.mem s.i.toNat n.toNat) ((s.reg x).toNat % 64) ((s.reg y).toNat % 32) X Y)) ∧
      (t.reg 15#4 = 0#8 ∨ t.reg 15#4 = 1#8) ∧
      (t.reg 15#4 = 1#8 ↔ ∃ X Y, X < 64 ∧ Y < 32 ∧ s.cell (X + Y * 64) = true ∧
        spriteBit (Memory.readBytes s.mem s.i.toNat n.toNat) ((s.reg x).toNat % 64) ((s.reg y).toNat % 32) X Y = true) ∧
      (∀ z, z ≠ 15#4 → t.reg z = s.reg z) ∧ t.dirty = true ∧ t.pc = s.pc + 2#16 ∧
      t = { s with v := t.v, fb := t.fb, dirty := t.dirty, pc := t.pc }) ∧
    (0 < n.toNat → 4095 < s.i.toNat + n.toNat - 1 →
      exec (.draw x y n) s = .next (s.faulted 4#3 (lowestOutside s.i) (0xD#4 ++ x ++ y ++ n)))

/-- R175: "In general two identical DRAWs in a row restore the framebuffer" (an inference of the spec from R171). With
`X` or `Y` = 15 the first DRAW overwrites the origin, so the second is another DRAW. -/
def Obligations.DrawingTwiceRestoresTheFramebuffer : Prop :=
  ∀ (x y n : Nibble) (s : State), x ≠ 15#4 → y ≠ 15#4 → (n = 0#4 ∨ s.i.toNat + n.toNat - 1 ≤ 4095) →
    ∃ t u, exec (.draw x y n) s = .next t ∧ exec (.draw x y n) t = .next u ∧ u.fb = s.fb ∧
      ((∀ X Y, X < 64 → Y < 32 →
          spriteBit (Memory.readBytes s.mem s.i.toNat n.toNat) ((s.reg x).toNat % 64) ((s.reg y).toNat % 32) X Y = true →
          s.cell (X + Y * 64) = false) →
        t.reg 15#4 = 0#8 ∧
        (u.reg 15#4 = 1#8 ↔ ∃ X Y, X < 64 ∧ Y < 32 ∧
          spriteBit (Memory.readBytes s.mem s.i.toNat n.toNat) ((s.reg x).toNat % 64) ((s.reg y).toNat % 32) X Y = true))

/-! ## Keys and timers -/

/-- R180, R181 (the low nibble is D13, log entry 20). -/
def Obligations.KeySkipsTestTheRefreshedSnapshot : Prop :=
  ∀ (x : Nibble) (s : State),
    decode (0xE#4 ++ x ++ 0x9E#8) = some (.keyPressed x) ∧ decode (0xE#4 ++ x ++ 0xA1#8) = some (.keyNotPressed x) ∧
    exec (.keyPressed x) s = .next
      { s with
        keys := s.input.keys
        pc := if s.input.keys.getLsbD ((s.reg x).toNat % 16) = true then s.pc + 4#16 else s.pc + 2#16 } ∧
    exec (.keyNotPressed x) s = .next
      { s with
        keys := s.input.keys
        pc := if s.input.keys.getLsbD ((s.reg x).toNat % 16) = true then s.pc + 2#16 else s.pc + 4#16 }

/-- R182, the instruction itself; that ticks are applied only between instructions is
EndOfCycleDrainsTicksAndReportsTheFrame. -/
def Obligations.GetTimerReadsTheDelayTimer : Prop :=
  ∀ (x : Nibble) (s : State),
    decode (0xF#4 ++ x ++ 0x07#8) = some (.getTimer x) ∧
    ∃ t, exec (.getTimer x) s = .next t ∧ t.reg x = s.dt ∧ (∀ y, y ≠ x → t.reg y = s.reg y) ∧
      t.pc = s.pc + 2#16 ∧ t = { s with v := t.v, pc := t.pc }

/-- R183, R105 (D24, D25). -/
def Obligations.WaitForKeyBeginsTheWait : Prop :=
  ∀ (x k : Nibble) (s : State),
    decode (0xF#4 ++ x ++ 0x0A#8) = some (.waitForKey x) ∧
    ∃ t, exec (.waitForKey x) s = .next t ∧ t = { s with waitReg := x, phase := .waitKey } ∧
      (s.halted = false → t.input.keyDown = some k →
        ∃ u, step t = .next u ∧ (u.reg x).toNat = k.toNat ∧ u.pc = s.pc + 2#16 ∧ u.phase = .ready ∧ u.keys = s.keys)

/-- R184, the instruction itself; that the TIMER_TICK of the same cycle already counts is
EndOfCycleDrainsTicksAndReportsTheFrame. -/
def Obligations.SetDelayLoadsTheDelayTimer : Prop :=
  ∀ (x : Nibble) (s : State),
    decode (0xF#4 ++ x ++ 0x15#8) = some (.setDelay x) ∧
    exec (.setDelay x) s = .next { s with dt := s.reg x, pc := s.pc + 2#16 }

/-- R185 (no beep on a write is D31, log entry 23). -/
def Obligations.SetSoundLoadsTheSoundTimer : Prop :=
  ∀ (x : Nibble) (s : State),
    decode (0xF#4 ++ x ++ 0x18#8) = some (.setSound x) ∧
    exec (.setSound x) s = .next { s with st := s.reg x, pc := s.pc + 2#16 }

/-! ## Frames and whole-machine rules -/

/-- R22: "No other instruction changes `V[F]` as a side effect"; the frame of every instruction over the registers. -/
def Obligations.OnlyDestinationAndFlagRegistersChange : Prop :=
  ∀ (i : Instr) (s t : State) (y : Nibble), exec i s = .next t → i.mayWriteReg y = false → t.reg y = s.reg y

/-- R51: "No other instruction touches `MEM`"; the frame of every instruction over memory (precise faults: D16). -/
def Obligations.OnlyBcdAndStoreRegsChangeMemory : Prop :=
  ∀ (i : Instr) (s t : State) (a : Nat), exec i s = .next t →
    (i.storesAt s a = false ∨ t.halted ≠ s.halted) → t.byte a = s.byte a

/-- R23, R26, R27, R29, R30, R31, R32, R128: who writes what; the frame of every instruction over the special
registers. -/
def Obligations.EachSpecialRegisterHasItsWriters : Prop :=
  ∀ (i : Instr) (s t : State), exec i s = .next t →
    ((∀ n, i ≠ .setIndex n) → (∀ x, i ≠ .addToIndex x) → (∀ x, i ≠ .fontChar x) → t.i = s.i) ∧
    ((∀ n, i ≠ .call n) → t.stack = s.stack ∧ ((∀ g, i ≠ .ret g) → t.sp = s.sp)) ∧
    (i.drawsFrame = false → t.fb = s.fb ∧ t.dirty = s.dirty) ∧
    ((∀ x, i ≠ .setDelay x) → t.dt = s.dt) ∧ ((∀ x, i ≠ .setSound x) → t.st = s.st) ∧
    ((∀ x, i ≠ .keyPressed x) → (∀ x, i ≠ .keyNotPressed x) → t.keys = s.keys) ∧
    ((∀ x, i ≠ .waitForKey x) → t.phase = s.phase ∧ t.waitReg = s.waitReg) ∧
    ((∀ n, i ≠ .call n) → (∀ g, i ≠ .ret g) → (∀ x, i ≠ .bcd x) → (∀ x, i ≠ .storeRegs x) → (∀ x, i ≠ .loadRegs x) →
      (∀ x y n, i ≠ .draw x y n) →
      t.halted = s.halted ∧ t.errKind = s.errKind ∧ t.errPc = s.errPc ∧ t.errOp = s.errOp ∧ t.errAddr = s.errAddr ∧
      t.events = s.events) ∧
    (t.unkSeen = s.unkSeen ∧ t.unkPc = s.unkPc ∧ t.unkOp = s.unkOp ∧ t.pendingTicks = s.pendingTicks ∧
      t.inputs = s.inputs ∧ t.draws = s.draws)

/-- R24: "every instruction either sets PC explicitly (jump/call/return) or advances it by +2 (fallthrough) or +4
(conditional skip taken)"; R103; R110 (D16). -/
def Obligations.PcAdvancesByTwoOrFourOrIsSet : Prop :=
  ∀ (i : Instr) (s t : State), s.halted = false → exec i s = .next t →
    (t.halted = true ∧ t.pc = s.pc) ∨ (∃ x, i = .waitForKey x ∧ t.pc = s.pc) ∨
    (∃ n, i = .jump n ∨ i = .call n ∨ i = .jumpOffset n) ∨ (∃ g, i = .ret g) ∨ t.pc = s.pc + 2#16 ∨
    (t.pc = s.pc + 4#16 ∧
      ((∃ x nn, i = .skipEqConst x nn ∨ i = .skipNeqConst x nn) ∨ (∃ x y g, i = .skipEqReg x y g ∨ i = .skipNeqReg x y g) ∨
        ∃ x, i = .keyPressed x ∨ i = .keyNotPressed x))

/-- R110, R206, R208 (precise faults D16, codes D17, addresses D18). -/
def Obligations.FaultsArePreciseAndOfTheirInstruction : Prop :=
  ∀ (i : Instr) (s t : State), s.halted = false → exec i s = .next t → t.halted = true →
    (∃ n, i = .call n ∧ s.sp.val = 16 ∧ t = s.faulted 2#3 0#16 (encode i)) ∨
    (∃ g, i = .ret g ∧ s.sp.val = 0 ∧ t = s.faulted 3#3 0#16 (encode i)) ∨
    (((∃ x, i = .bcd x ∧ 4095 < s.i.toNat + 2) ∨
        (∃ x, (i = .storeRegs x ∨ i = .loadRegs x) ∧ 4095 < s.i.toNat + x.toNat) ∨
        (∃ x y n, i = .draw x y n ∧ 0 < n.toNat ∧ 4095 < s.i.toNat + n.toNat - 1)) ∧
      t = s.faulted 4#3 (lowestOutside s.i) (encode i))

/-- R108, R110, R206, R213 (D16 to D18, D23; the moment at which ticks join is log entry 4; the last two fields are
the model's own). -/
def Obligations.HaltingStepChangesOnlyTheRecord : Prop :=
  ∀ s t : State, step s = .next t → t.halted = true →
    ∃ kind addr op, (s.fetch = some op ∨ (s.fetch = none ∧ op = 0#16)) ∧ kind ∈ [2#3, 3#3, 4#3] ∧
      t = { s.faulted kind addr op with
        pendingTicks := s.pendingTicks + s.input.ticks
        inputs := s.inputs.tail
        draws := s.draws + 1 }

/-- R28, R107: "One event per dirty cycle; a cycle that runs neither CLS nor DRAW emits none" (D21). DIRTY = 0 is part
of Invariant. -/
def Obligations.FrameReadyOnceForEachDirtyCycle : Prop :=
  ∀ s t : State, s.dirty = false → step s = .next t →
    t.dirty = false ∧ ∃ es, t.events = s.events ++ es ∧
      ((s.phase = .ready ∧ t.halted = false ∧ ∃ w i, s.fetch = some w ∧ decode w = some i ∧ i.drawsFrame = true) →
        es.filter Event.isFrameReady = [.frameReady t.fb]) ∧
      (¬ (s.phase = .ready ∧ t.halted = false ∧ ∃ w i, s.fetch = some w ∧ decode w = some i ∧ i.drawsFrame = true) →
        es.filter Event.isFrameReady = [])

/-- R113: "only the values GET_TIMER reads and the moment of the beep depend on how many ticks were drained" (D22). -/
def Obligations.TicksReachTheRestOnlyThroughGetTimer : Prop :=
  ∀ s t : State, sameButTime s t → s.input.keys = t.input.keys → s.input.rand = t.input.rand →
    s.input.keyDown = t.input.keyDown → (∀ w x, s.fetch = some w → decode w ≠ some (.getTimer x)) →
    ∀ s', step s = .next s' → ∃ t', step t = .next t' ∧ sameButTime s' t'

/-! ## Invariants, reset and the loader -/

/-- R35 (D7, D17, D20, D22 for the fields the spec adds). -/
def Obligations.ResetMeetsTheInvariant : Prop :=
  Invariant State.reset

/-- R24 (the bound 0x10FE is an inference of the spec), R25, R26, R28, R32, R106, R107, R200, R207. -/
def Obligations.StepKeepsTheInvariant : Prop :=
  ∀ s t : State, Invariant s → step s = .next t → Invariant t

/-- R218, R242 with the rules of StepKeepsTheInvariant (reset and load beside the step: log entry 9). -/
def Obligations.ReachableStatesMeetTheInvariant : Prop :=
  ∀ s : State, Reachable s → Invariant s

/-- R35, R240 (the framebuffer is D7, the fields the spec adds D17, D20, D22, D29). -/
def Obligations.ResetLeavesTheValuesOfTheTable : Prop :=
  ∀ s r : State, (r = State.reset ∨ r = s.hostReset) →
    (∀ x, r.reg x = 0#8) ∧ r.i = 0#16 ∧ r.pc = 0x200#16 ∧ (∀ a, r.byte a = 0#8) ∧
    (∀ k : Fin 16, r.stack[k] = 0#16) ∧ r.sp = 0 ∧ (∀ i, i < 2048 → r.cell i = false) ∧ r.dirty = false ∧
    r.dt = 0#8 ∧ r.st = 0#8 ∧ r.keys = 0#16 ∧ r.phase = .ready ∧ r.waitReg = 0#4 ∧ r.halted = false ∧
    r.errKind = 0#3 ∧ r.errPc = 0#16 ∧ r.errOp = 0#16 ∧ r.errAddr = 0#16 ∧ r.unkSeen = false ∧ r.unkPc = 0#16 ∧
    r.unkOp = 0#16 ∧ r.pendingTicks = 0

/-- R242, R205 (a ROM shorter than the program space, the empty one included: D35). The font is any 80 bytes (R243). -/
def Obligations.BootPlacesFontAndRom : Prop :=
  ∀ font rom : List Byte, font.length = 80 →
    (rom.length ≤ 3584 → ∃ s, State.boot font rom = some s ∧
      (∀ k b, font[k]? = some b → s.byte (0x50 + k) = b) ∧ (∀ k b, rom[k]? = some b → s.byte (0x200 + k) = b) ∧
      (∀ a, (a < 0x50 ∨ 0xA0 ≤ a) → (a < 0x200 ∨ 0x200 + rom.length ≤ a) → s.byte a = 0#8) ∧
      Memory.wf s.mem = true ∧ s = { State.reset with mem := s.mem }) ∧
    (3584 < rom.length → State.boot font rom = none)
end

