-- ==== Sys2Proof/Laws/Memory.lean ====
section
/-! SUPPORT. The laws of memory: read after write, the canonical form is kept by every operation, and memories that read
the same are the same. -/

namespace Sys2Proof.Machine

/-- What the canonical form of a non-empty list says of its head and its tail. -/
theorem Memory.wfFrom_cons {lo a : Nat} {x : Byte} {m : Memory} :
    Memory.wfFrom lo ((a, x) :: m) = true ↔
      lo ≤ a ∧ a < Config.memorySize ∧ x ≠ Memory.unlisted ∧ Memory.wfFrom (a + 1) m = true := by
  simp [Memory.wfFrom, and_assoc]

/-- The canonical form from an address up is one from any lower address. -/
theorem Memory.wfFrom_mono {lo lo' : Nat} {m : Memory} (h : lo' ≤ lo) (hm : Memory.wfFrom lo m = true) :
    Memory.wfFrom lo' m = true := by
  cases m with
  | nil => rfl
  | cons c m =>
    obtain ⟨a, x⟩ := c
    rw [Memory.wfFrom_cons] at hm ⊢
    exact ⟨h.trans hm.1, hm.2⟩

/-- Below the first address of a canonical list every address is unlisted. -/
theorem Memory.get_below {lo a : Nat} {m : Memory} (hm : Memory.wfFrom lo m = true) (h : a < lo) :
    m.get a = Memory.unlisted := by
  induction m generalizing lo with
  | nil => rfl
  | cons c m ih =>
    obtain ⟨b, x⟩ := c
    rw [Memory.wfFrom_cons] at hm
    have hne : b ≠ a := by omega
    rw [Memory.get, if_neg hne]
    exact ih hm.2.2.2 (by omega)

/-- Outside 0..4095 nothing is listed. -/
theorem Memory.get_outside {lo a : Nat} {m : Memory} (hm : Memory.wfFrom lo m = true) (h : Config.memorySize ≤ a) :
    m.get a = Memory.unlisted := by
  induction m generalizing lo with
  | nil => rfl
  | cons c m ih =>
    obtain ⟨b, x⟩ := c
    rw [Memory.wfFrom_cons] at hm
    have hne : b ≠ a := by omega
    rw [Memory.get, if_neg hne]
    exact ih hm.2.2.2

/-- A write leaves every other address alone. -/
theorem Memory.get_set_other {a b : Nat} (h : a ≠ b) (m : Memory) (x : Byte) :
    (Memory.set m a x).get b = m.get b := by
  induction m with
  | nil => simp only [Memory.set]; split <;> simp [Memory.get, h]
  | cons c m ih =>
    obtain ⟨e, y⟩ := c
    simp only [Memory.set]
    split_ifs <;> simp_all [Memory.get]

/-- A read of the address just written gives the byte written. -/
theorem Memory.get_set_same {lo : Nat} {m : Memory} (hm : Memory.wfFrom lo m = true) (a : Nat) (x : Byte) :
    (Memory.set m a x).get a = x := by
  induction m generalizing lo with
  | nil => simp only [Memory.set]; split <;> simp_all [Memory.get]
  | cons c m ih =>
    obtain ⟨b, y⟩ := c
    rw [Memory.wfFrom_cons] at hm
    have hbelow : ∀ d, d < b + 1 → Memory.get m d = Memory.unlisted := fun _ h => Memory.get_below hm.2.2.2 h
    simp only [Memory.set]
    split_ifs with h1 h2 h3 h4
    · have hne : b ≠ a := by omega
      simp [Memory.get, hne, hbelow a (by omega), h2]
    · simp [Memory.get]
    · simp [hbelow a (by omega), h4]
    · simp [Memory.get]
    · have hne : b ≠ a := by omega
      simp [Memory.get, hne, ih hm.2.2.2]

/-- A write inside memory keeps the canonical form. -/
theorem Memory.wfFrom_set {lo a : Nat} {m : Memory} (hm : Memory.wfFrom lo m = true) (hlo : lo ≤ a)
    (ha : a < Config.memorySize) (x : Byte) : Memory.wfFrom lo (Memory.set m a x) = true := by
  induction m generalizing lo with
  | nil =>
    simp only [Memory.set]
    split
    · rfl
    · rw [Memory.wfFrom_cons]; exact ⟨hlo, ha, by assumption, rfl⟩
  | cons c m ih =>
    obtain ⟨b, y⟩ := c
    have hm' := hm
    rw [Memory.wfFrom_cons] at hm
    obtain ⟨h1, h2, h3, h4⟩ := hm
    simp only [Memory.set]
    split_ifs with g1 g2 g3 g4
    · exact hm'
    · rw [Memory.wfFrom_cons, Memory.wfFrom_cons]
      exact ⟨hlo, ha, g2, by omega, h2, h3, h4⟩
    · exact Memory.wfFrom_mono (by omega) h4
    · rw [Memory.wfFrom_cons]
      exact ⟨hlo, ha, g4, by subst g3; exact h4⟩
    · rw [Memory.wfFrom_cons]
      exact ⟨h1, h2, h3, ih h4 (by omega)⟩

/-- A write inside memory keeps the canonical form. -/
theorem Memory.wf_set {a : Nat} {m : Memory} (hm : Memory.wf m = true) (ha : a < Config.memorySize) (x : Byte) :
    Memory.wf (Memory.set m a x) = true := Memory.wfFrom_set hm (Nat.zero_le a) ha x

/-- A run of writes inside memory keeps the canonical form. -/
theorem Memory.wf_writeBytes {m : Memory} (hm : Memory.wf m = true) (xs : List Byte) (a : Nat)
    (ha : a + xs.length ≤ Config.memorySize) : Memory.wf (Memory.writeBytes m a xs) = true := by
  induction xs generalizing m a with
  | nil => exact hm
  | cons x xs ih =>
    simp only [List.length_cons] at ha
    exact ih (Memory.wf_set hm (by omega) x) (a + 1) (by omega)

/-- A run of writes leaves every address outside it alone. -/
theorem Memory.get_writeBytes_outside (xs : List Byte) (m : Memory) (a b : Nat) (h : b < a ∨ a + xs.length ≤ b) :
    (Memory.writeBytes m a xs).get b = m.get b := by
  induction xs generalizing m a with
  | nil => rfl
  | cons x xs ih =>
    simp only [List.length_cons] at h
    rw [Memory.writeBytes, ih _ _ (by omega), Memory.get_set_other (by omega)]

/-- A run of writes inside memory puts byte `i` at address `a + i`. -/
theorem Memory.get_writeBytes_inside {m : Memory} (hm : Memory.wf m = true) (xs : List Byte) (a i : Nat)
    (ha : a + xs.length ≤ Config.memorySize) (hi : i < xs.length) :
    (Memory.writeBytes m a xs).get (a + i) = xs[i] := by
  induction xs generalizing m a i with
  | nil => simp at hi
  | cons x xs ih =>
    simp only [List.length_cons] at ha hi
    rw [Memory.writeBytes]
    cases i with
    | zero =>
      rw [Nat.add_zero, Memory.get_writeBytes_outside _ _ _ _ (by omega)]
      exact Memory.get_set_same hm a x
    | succ i =>
      have := ih (Memory.wf_set hm (a := a) (by omega) x) (a + 1) i (by omega) (by omega)
      rw [show a + (i + 1) = a + 1 + i by omega, this]
      rfl

@[simp] theorem Memory.length_readBytes (m : Memory) (a n : Nat) : (Memory.readBytes m a n).length = n := by
  induction n generalizing a with
  | zero => rfl
  | succ n ih => simp [Memory.readBytes, ih]

/-- Byte `i` of a run of reads is the byte at `a + i`. -/
theorem Memory.getElem_readBytes (m : Memory) (a n i : Nat) (h : i < (Memory.readBytes m a n).length) :
    (Memory.readBytes m a n)[i] = m.get (a + i) := by
  induction n generalizing a i with
  | zero => simp [Memory.readBytes] at h
  | succ n ih =>
    cases i with
    | zero => rfl
    | succ i =>
      simp only [Memory.readBytes, List.getElem_cons_succ]
      rw [ih, show a + 1 + i = a + (i + 1) by omega]

/-- A run of reads depends on the bytes it reads alone. -/
theorem Memory.readBytes_congr {m m' : Memory} {a n : Nat}
    (h : ∀ b, a ≤ b → b < a + n → m.get b = m'.get b) : Memory.readBytes m a n = Memory.readBytes m' a n := by
  apply List.ext_getElem (by simp)
  intro i h1 h2
  rw [Memory.getElem_readBytes, Memory.getElem_readBytes]
  simp only [Memory.length_readBytes] at h1
  exact h _ (by omega) (by omega)

/-- Canonical memories that read the same are the same list. -/
theorem Memory.ext_of_get {lo : Nat} {m m' : Memory} (hm : Memory.wfFrom lo m = true)
    (hm' : Memory.wfFrom lo m' = true) (h : ∀ a, m.get a = m'.get a) : m = m' := by
  induction m generalizing lo m' with
  | nil =>
    cases m' with
    | nil => rfl
    | cons c m' =>
      obtain ⟨b, y⟩ := c
      rw [Memory.wfFrom_cons] at hm'
      have := h b
      simp [Memory.get] at this
      exact absurd this.symm hm'.2.2.1
  | cons c m ih =>
    obtain ⟨a, x⟩ := c
    rw [Memory.wfFrom_cons] at hm
    cases m' with
    | nil =>
      have := h a
      simp [Memory.get] at this
      exact absurd this hm.2.2.1
    | cons c' m' =>
      obtain ⟨b, y⟩ := c'
      rw [Memory.wfFrom_cons] at hm'
      have hab : a = b := by
        by_contra hne
        rcases Nat.lt_or_gt_of_ne hne with hlt | hlt
        · have := h a
          rw [Memory.get, if_pos rfl, Memory.get, if_neg (by omega),
            Memory.get_below hm'.2.2.2 (by omega)] at this
          exact hm.2.2.1 this
        · have := h b
          rw [Memory.get, if_neg (by omega), Memory.get, if_pos rfl,
            Memory.get_below hm.2.2.2 (by omega)] at this
          exact hm'.2.2.1 this.symm
      subst hab
      have hxy : x = y := by simpa [Memory.get] using h a
      subst hxy
      congr 1
      refine ih hm.2.2.2 hm'.2.2.2 fun d => ?_
      by_cases hd : a = d
      · subst hd
        rw [Memory.get_below hm.2.2.2 (by omega), Memory.get_below hm'.2.2.2 (by omega)]
      · simpa [Memory.get, hd] using h d

/-- Register `r` after a run of loads into the first `k` registers. -/
theorem Memory.getElem_loadInto (m : Memory) (base k : Nat) (v : Vector Byte Config.numRegs) (r : Nat)
    (hr : r < Config.numRegs) :
    (Memory.loadInto m base k v)[r] = if r < k then m.get (base + r) else v[r] := by
  induction k with
  | zero => simp [Memory.loadInto]
  | succ k ih =>
    simp only [Memory.loadInto, Vector.getElem_setIfInBounds, ih]
    split_ifs <;> first | omega | simp_all

end Sys2Proof.Machine
end

