-- ==== Sys2Proof/Laws/State.lean ====
section
/-! SUPPORT. What each named update of the state does to each field: true by `rfl`, so that no later proof unfolds a
record update. A field that an update computes in a longer way (`dropTop`, `reg`) has its lemma in
Laws/Ops.lean. -/

namespace Sys2Proof.Machine

/-! ## setReg -/

@[simp] theorem State.setReg_v (s : State) (x : Nibble) (b : Byte) : (s.setReg x b).v = s.v.set x.toNat b x.isLt := rfl
@[simp] theorem State.setReg_i (s : State) (x : Nibble) (b : Byte) : (s.setReg x b).i = s.i := rfl
@[simp] theorem State.setReg_pc (s : State) (x : Nibble) (b : Byte) : (s.setReg x b).pc = s.pc := rfl
@[simp] theorem State.setReg_mem (s : State) (x : Nibble) (b : Byte) : (s.setReg x b).mem = s.mem := rfl
@[simp] theorem State.setReg_stack (s : State) (x : Nibble) (b : Byte) : (s.setReg x b).stack = s.stack := rfl
@[simp] theorem State.setReg_sp (s : State) (x : Nibble) (b : Byte) : (s.setReg x b).sp = s.sp := rfl
@[simp] theorem State.setReg_fb (s : State) (x : Nibble) (b : Byte) : (s.setReg x b).fb = s.fb := rfl
@[simp] theorem State.setReg_dirty (s : State) (x : Nibble) (b : Byte) : (s.setReg x b).dirty = s.dirty := rfl
@[simp] theorem State.setReg_dt (s : State) (x : Nibble) (b : Byte) : (s.setReg x b).dt = s.dt := rfl
@[simp] theorem State.setReg_st (s : State) (x : Nibble) (b : Byte) : (s.setReg x b).st = s.st := rfl
@[simp] theorem State.setReg_keys (s : State) (x : Nibble) (b : Byte) : (s.setReg x b).keys = s.keys := rfl
@[simp] theorem State.setReg_phase (s : State) (x : Nibble) (b : Byte) : (s.setReg x b).phase = s.phase := rfl
@[simp] theorem State.setReg_waitReg (s : State) (x : Nibble) (b : Byte) : (s.setReg x b).waitReg = s.waitReg := rfl
@[simp] theorem State.setReg_halted (s : State) (x : Nibble) (b : Byte) : (s.setReg x b).halted = s.halted := rfl
@[simp] theorem State.setReg_errKind (s : State) (x : Nibble) (b : Byte) : (s.setReg x b).errKind = s.errKind := rfl
@[simp] theorem State.setReg_errPc (s : State) (x : Nibble) (b : Byte) : (s.setReg x b).errPc = s.errPc := rfl
@[simp] theorem State.setReg_errOp (s : State) (x : Nibble) (b : Byte) : (s.setReg x b).errOp = s.errOp := rfl
@[simp] theorem State.setReg_errAddr (s : State) (x : Nibble) (b : Byte) : (s.setReg x b).errAddr = s.errAddr := rfl
@[simp] theorem State.setReg_unkSeen (s : State) (x : Nibble) (b : Byte) : (s.setReg x b).unkSeen = s.unkSeen := rfl
@[simp] theorem State.setReg_unkPc (s : State) (x : Nibble) (b : Byte) : (s.setReg x b).unkPc = s.unkPc := rfl
@[simp] theorem State.setReg_unkOp (s : State) (x : Nibble) (b : Byte) : (s.setReg x b).unkOp = s.unkOp := rfl
@[simp] theorem State.setReg_pendingTicks (s : State) (x : Nibble) (b : Byte) : (s.setReg x b).pendingTicks = s.pendingTicks := rfl
@[simp] theorem State.setReg_inputs (s : State) (x : Nibble) (b : Byte) : (s.setReg x b).inputs = s.inputs := rfl
@[simp] theorem State.setReg_draws (s : State) (x : Nibble) (b : Byte) : (s.setReg x b).draws = s.draws := rfl
@[simp] theorem State.setReg_events (s : State) (x : Nibble) (b : Byte) : (s.setReg x b).events = s.events := rfl
@[simp] theorem State.setReg_input (s : State) (x : Nibble) (b : Byte) : (s.setReg x b).input = s.input := rfl
@[simp] theorem State.setReg_byte (s : State) (x : Nibble) (b : Byte) (n : Nat) : (s.setReg x b).byte n = s.byte n := rfl

/-! ## setIndex -/

@[simp] theorem State.setIndex_v (s : State) (w : Word) : (s.setIndex w).v = s.v := rfl
@[simp] theorem State.setIndex_i (s : State) (w : Word) : (s.setIndex w).i = w := rfl
@[simp] theorem State.setIndex_pc (s : State) (w : Word) : (s.setIndex w).pc = s.pc := rfl
@[simp] theorem State.setIndex_mem (s : State) (w : Word) : (s.setIndex w).mem = s.mem := rfl
@[simp] theorem State.setIndex_stack (s : State) (w : Word) : (s.setIndex w).stack = s.stack := rfl
@[simp] theorem State.setIndex_sp (s : State) (w : Word) : (s.setIndex w).sp = s.sp := rfl
@[simp] theorem State.setIndex_fb (s : State) (w : Word) : (s.setIndex w).fb = s.fb := rfl
@[simp] theorem State.setIndex_dirty (s : State) (w : Word) : (s.setIndex w).dirty = s.dirty := rfl
@[simp] theorem State.setIndex_dt (s : State) (w : Word) : (s.setIndex w).dt = s.dt := rfl
@[simp] theorem State.setIndex_st (s : State) (w : Word) : (s.setIndex w).st = s.st := rfl
@[simp] theorem State.setIndex_keys (s : State) (w : Word) : (s.setIndex w).keys = s.keys := rfl
@[simp] theorem State.setIndex_phase (s : State) (w : Word) : (s.setIndex w).phase = s.phase := rfl
@[simp] theorem State.setIndex_waitReg (s : State) (w : Word) : (s.setIndex w).waitReg = s.waitReg := rfl
@[simp] theorem State.setIndex_halted (s : State) (w : Word) : (s.setIndex w).halted = s.halted := rfl
@[simp] theorem State.setIndex_errKind (s : State) (w : Word) : (s.setIndex w).errKind = s.errKind := rfl
@[simp] theorem State.setIndex_errPc (s : State) (w : Word) : (s.setIndex w).errPc = s.errPc := rfl
@[simp] theorem State.setIndex_errOp (s : State) (w : Word) : (s.setIndex w).errOp = s.errOp := rfl
@[simp] theorem State.setIndex_errAddr (s : State) (w : Word) : (s.setIndex w).errAddr = s.errAddr := rfl
@[simp] theorem State.setIndex_unkSeen (s : State) (w : Word) : (s.setIndex w).unkSeen = s.unkSeen := rfl
@[simp] theorem State.setIndex_unkPc (s : State) (w : Word) : (s.setIndex w).unkPc = s.unkPc := rfl
@[simp] theorem State.setIndex_unkOp (s : State) (w : Word) : (s.setIndex w).unkOp = s.unkOp := rfl
@[simp] theorem State.setIndex_pendingTicks (s : State) (w : Word) : (s.setIndex w).pendingTicks = s.pendingTicks := rfl
@[simp] theorem State.setIndex_inputs (s : State) (w : Word) : (s.setIndex w).inputs = s.inputs := rfl
@[simp] theorem State.setIndex_draws (s : State) (w : Word) : (s.setIndex w).draws = s.draws := rfl
@[simp] theorem State.setIndex_events (s : State) (w : Word) : (s.setIndex w).events = s.events := rfl
@[simp] theorem State.setIndex_input (s : State) (w : Word) : (s.setIndex w).input = s.input := rfl
@[simp] theorem State.setIndex_byte (s : State) (w : Word) (n : Nat) : (s.setIndex w).byte n = s.byte n := rfl
@[simp] theorem State.setIndex_reg (s : State) (w : Word) (y : Nibble) : (s.setIndex w).reg y = s.reg y := rfl

/-! ## setPc -/

@[simp] theorem State.setPc_v (s : State) (w : Word) : (s.setPc w).v = s.v := rfl
@[simp] theorem State.setPc_i (s : State) (w : Word) : (s.setPc w).i = s.i := rfl
@[simp] theorem State.setPc_pc (s : State) (w : Word) : (s.setPc w).pc = w := rfl
@[simp] theorem State.setPc_mem (s : State) (w : Word) : (s.setPc w).mem = s.mem := rfl
@[simp] theorem State.setPc_stack (s : State) (w : Word) : (s.setPc w).stack = s.stack := rfl
@[simp] theorem State.setPc_sp (s : State) (w : Word) : (s.setPc w).sp = s.sp := rfl
@[simp] theorem State.setPc_fb (s : State) (w : Word) : (s.setPc w).fb = s.fb := rfl
@[simp] theorem State.setPc_dirty (s : State) (w : Word) : (s.setPc w).dirty = s.dirty := rfl
@[simp] theorem State.setPc_dt (s : State) (w : Word) : (s.setPc w).dt = s.dt := rfl
@[simp] theorem State.setPc_st (s : State) (w : Word) : (s.setPc w).st = s.st := rfl
@[simp] theorem State.setPc_keys (s : State) (w : Word) : (s.setPc w).keys = s.keys := rfl
@[simp] theorem State.setPc_phase (s : State) (w : Word) : (s.setPc w).phase = s.phase := rfl
@[simp] theorem State.setPc_waitReg (s : State) (w : Word) : (s.setPc w).waitReg = s.waitReg := rfl
@[simp] theorem State.setPc_halted (s : State) (w : Word) : (s.setPc w).halted = s.halted := rfl
@[simp] theorem State.setPc_errKind (s : State) (w : Word) : (s.setPc w).errKind = s.errKind := rfl
@[simp] theorem State.setPc_errPc (s : State) (w : Word) : (s.setPc w).errPc = s.errPc := rfl
@[simp] theorem State.setPc_errOp (s : State) (w : Word) : (s.setPc w).errOp = s.errOp := rfl
@[simp] theorem State.setPc_errAddr (s : State) (w : Word) : (s.setPc w).errAddr = s.errAddr := rfl
@[simp] theorem State.setPc_unkSeen (s : State) (w : Word) : (s.setPc w).unkSeen = s.unkSeen := rfl
@[simp] theorem State.setPc_unkPc (s : State) (w : Word) : (s.setPc w).unkPc = s.unkPc := rfl
@[simp] theorem State.setPc_unkOp (s : State) (w : Word) : (s.setPc w).unkOp = s.unkOp := rfl
@[simp] theorem State.setPc_pendingTicks (s : State) (w : Word) : (s.setPc w).pendingTicks = s.pendingTicks := rfl
@[simp] theorem State.setPc_inputs (s : State) (w : Word) : (s.setPc w).inputs = s.inputs := rfl
@[simp] theorem State.setPc_draws (s : State) (w : Word) : (s.setPc w).draws = s.draws := rfl
@[simp] theorem State.setPc_events (s : State) (w : Word) : (s.setPc w).events = s.events := rfl
@[simp] theorem State.setPc_input (s : State) (w : Word) : (s.setPc w).input = s.input := rfl
@[simp] theorem State.setPc_byte (s : State) (w : Word) (n : Nat) : (s.setPc w).byte n = s.byte n := rfl
@[simp] theorem State.setPc_reg (s : State) (w : Word) (y : Nibble) : (s.setPc w).reg y = s.reg y := rfl

/-! ## advance -/

@[simp] theorem State.advance_v (s : State) (n : Word) : (s.advance n).v = s.v := rfl
@[simp] theorem State.advance_i (s : State) (n : Word) : (s.advance n).i = s.i := rfl
@[simp] theorem State.advance_pc (s : State) (n : Word) : (s.advance n).pc = s.pc + n := rfl
@[simp] theorem State.advance_mem (s : State) (n : Word) : (s.advance n).mem = s.mem := rfl
@[simp] theorem State.advance_stack (s : State) (n : Word) : (s.advance n).stack = s.stack := rfl
@[simp] theorem State.advance_sp (s : State) (n : Word) : (s.advance n).sp = s.sp := rfl
@[simp] theorem State.advance_fb (s : State) (n : Word) : (s.advance n).fb = s.fb := rfl
@[simp] theorem State.advance_dirty (s : State) (n : Word) : (s.advance n).dirty = s.dirty := rfl
@[simp] theorem State.advance_dt (s : State) (n : Word) : (s.advance n).dt = s.dt := rfl
@[simp] theorem State.advance_st (s : State) (n : Word) : (s.advance n).st = s.st := rfl
@[simp] theorem State.advance_keys (s : State) (n : Word) : (s.advance n).keys = s.keys := rfl
@[simp] theorem State.advance_phase (s : State) (n : Word) : (s.advance n).phase = s.phase := rfl
@[simp] theorem State.advance_waitReg (s : State) (n : Word) : (s.advance n).waitReg = s.waitReg := rfl
@[simp] theorem State.advance_halted (s : State) (n : Word) : (s.advance n).halted = s.halted := rfl
@[simp] theorem State.advance_errKind (s : State) (n : Word) : (s.advance n).errKind = s.errKind := rfl
@[simp] theorem State.advance_errPc (s : State) (n : Word) : (s.advance n).errPc = s.errPc := rfl
@[simp] theorem State.advance_errOp (s : State) (n : Word) : (s.advance n).errOp = s.errOp := rfl
@[simp] theorem State.advance_errAddr (s : State) (n : Word) : (s.advance n).errAddr = s.errAddr := rfl
@[simp] theorem State.advance_unkSeen (s : State) (n : Word) : (s.advance n).unkSeen = s.unkSeen := rfl
@[simp] theorem State.advance_unkPc (s : State) (n : Word) : (s.advance n).unkPc = s.unkPc := rfl
@[simp] theorem State.advance_unkOp (s : State) (n : Word) : (s.advance n).unkOp = s.unkOp := rfl
@[simp] theorem State.advance_pendingTicks (s : State) (n : Word) : (s.advance n).pendingTicks = s.pendingTicks := rfl
@[simp] theorem State.advance_inputs (s : State) (n : Word) : (s.advance n).inputs = s.inputs := rfl
@[simp] theorem State.advance_draws (s : State) (n : Word) : (s.advance n).draws = s.draws := rfl
@[simp] theorem State.advance_events (s : State) (n : Word) : (s.advance n).events = s.events := rfl
@[simp] theorem State.advance_input (s : State) (n : Word) : (s.advance n).input = s.input := rfl
@[simp] theorem State.advance_byte (s : State) (k : Word) (n : Nat) : (s.advance k).byte n = s.byte n := rfl
@[simp] theorem State.advance_reg (s : State) (n : Word) (y : Nibble) : (s.advance n).reg y = s.reg y := rfl

/-! ## skipIf -/

@[simp] theorem State.skipIf_v (s : State) (c : Bool) : (s.skipIf c).v = s.v := rfl
@[simp] theorem State.skipIf_i (s : State) (c : Bool) : (s.skipIf c).i = s.i := rfl
@[simp] theorem State.skipIf_pc (s : State) (c : Bool) : (s.skipIf c).pc = s.pc + if c then 4#16 else 2#16 := rfl
@[simp] theorem State.skipIf_mem (s : State) (c : Bool) : (s.skipIf c).mem = s.mem := rfl
@[simp] theorem State.skipIf_stack (s : State) (c : Bool) : (s.skipIf c).stack = s.stack := rfl
@[simp] theorem State.skipIf_sp (s : State) (c : Bool) : (s.skipIf c).sp = s.sp := rfl
@[simp] theorem State.skipIf_fb (s : State) (c : Bool) : (s.skipIf c).fb = s.fb := rfl
@[simp] theorem State.skipIf_dirty (s : State) (c : Bool) : (s.skipIf c).dirty = s.dirty := rfl
@[simp] theorem State.skipIf_dt (s : State) (c : Bool) : (s.skipIf c).dt = s.dt := rfl
@[simp] theorem State.skipIf_st (s : State) (c : Bool) : (s.skipIf c).st = s.st := rfl
@[simp] theorem State.skipIf_keys (s : State) (c : Bool) : (s.skipIf c).keys = s.keys := rfl
@[simp] theorem State.skipIf_phase (s : State) (c : Bool) : (s.skipIf c).phase = s.phase := rfl
@[simp] theorem State.skipIf_waitReg (s : State) (c : Bool) : (s.skipIf c).waitReg = s.waitReg := rfl
@[simp] theorem State.skipIf_halted (s : State) (c : Bool) : (s.skipIf c).halted = s.halted := rfl
@[simp] theorem State.skipIf_errKind (s : State) (c : Bool) : (s.skipIf c).errKind = s.errKind := rfl
@[simp] theorem State.skipIf_errPc (s : State) (c : Bool) : (s.skipIf c).errPc = s.errPc := rfl
@[simp] theorem State.skipIf_errOp (s : State) (c : Bool) : (s.skipIf c).errOp = s.errOp := rfl
@[simp] theorem State.skipIf_errAddr (s : State) (c : Bool) : (s.skipIf c).errAddr = s.errAddr := rfl
@[simp] theorem State.skipIf_unkSeen (s : State) (c : Bool) : (s.skipIf c).unkSeen = s.unkSeen := rfl
@[simp] theorem State.skipIf_unkPc (s : State) (c : Bool) : (s.skipIf c).unkPc = s.unkPc := rfl
@[simp] theorem State.skipIf_unkOp (s : State) (c : Bool) : (s.skipIf c).unkOp = s.unkOp := rfl
@[simp] theorem State.skipIf_pendingTicks (s : State) (c : Bool) : (s.skipIf c).pendingTicks = s.pendingTicks := rfl
@[simp] theorem State.skipIf_inputs (s : State) (c : Bool) : (s.skipIf c).inputs = s.inputs := rfl
@[simp] theorem State.skipIf_draws (s : State) (c : Bool) : (s.skipIf c).draws = s.draws := rfl
@[simp] theorem State.skipIf_events (s : State) (c : Bool) : (s.skipIf c).events = s.events := rfl
@[simp] theorem State.skipIf_input (s : State) (c : Bool) : (s.skipIf c).input = s.input := rfl
@[simp] theorem State.skipIf_byte (s : State) (c : Bool) (n : Nat) : (s.skipIf c).byte n = s.byte n := rfl
@[simp] theorem State.skipIf_reg (s : State) (c : Bool) (y : Nibble) : (s.skipIf c).reg y = s.reg y := rfl

/-! ## setMem -/

@[simp] theorem State.setMem_v (s : State) (m : Memory) : (s.setMem m).v = s.v := rfl
@[simp] theorem State.setMem_i (s : State) (m : Memory) : (s.setMem m).i = s.i := rfl
@[simp] theorem State.setMem_pc (s : State) (m : Memory) : (s.setMem m).pc = s.pc := rfl
@[simp] theorem State.setMem_mem (s : State) (m : Memory) : (s.setMem m).mem = m := rfl
@[simp] theorem State.setMem_stack (s : State) (m : Memory) : (s.setMem m).stack = s.stack := rfl
@[simp] theorem State.setMem_sp (s : State) (m : Memory) : (s.setMem m).sp = s.sp := rfl
@[simp] theorem State.setMem_fb (s : State) (m : Memory) : (s.setMem m).fb = s.fb := rfl
@[simp] theorem State.setMem_dirty (s : State) (m : Memory) : (s.setMem m).dirty = s.dirty := rfl
@[simp] theorem State.setMem_dt (s : State) (m : Memory) : (s.setMem m).dt = s.dt := rfl
@[simp] theorem State.setMem_st (s : State) (m : Memory) : (s.setMem m).st = s.st := rfl
@[simp] theorem State.setMem_keys (s : State) (m : Memory) : (s.setMem m).keys = s.keys := rfl
@[simp] theorem State.setMem_phase (s : State) (m : Memory) : (s.setMem m).phase = s.phase := rfl
@[simp] theorem State.setMem_waitReg (s : State) (m : Memory) : (s.setMem m).waitReg = s.waitReg := rfl
@[simp] theorem State.setMem_halted (s : State) (m : Memory) : (s.setMem m).halted = s.halted := rfl
@[simp] theorem State.setMem_errKind (s : State) (m : Memory) : (s.setMem m).errKind = s.errKind := rfl
@[simp] theorem State.setMem_errPc (s : State) (m : Memory) : (s.setMem m).errPc = s.errPc := rfl
@[simp] theorem State.setMem_errOp (s : State) (m : Memory) : (s.setMem m).errOp = s.errOp := rfl
@[simp] theorem State.setMem_errAddr (s : State) (m : Memory) : (s.setMem m).errAddr = s.errAddr := rfl
@[simp] theorem State.setMem_unkSeen (s : State) (m : Memory) : (s.setMem m).unkSeen = s.unkSeen := rfl
@[simp] theorem State.setMem_unkPc (s : State) (m : Memory) : (s.setMem m).unkPc = s.unkPc := rfl
@[simp] theorem State.setMem_unkOp (s : State) (m : Memory) : (s.setMem m).unkOp = s.unkOp := rfl
@[simp] theorem State.setMem_pendingTicks (s : State) (m : Memory) : (s.setMem m).pendingTicks = s.pendingTicks := rfl
@[simp] theorem State.setMem_inputs (s : State) (m : Memory) : (s.setMem m).inputs = s.inputs := rfl
@[simp] theorem State.setMem_draws (s : State) (m : Memory) : (s.setMem m).draws = s.draws := rfl
@[simp] theorem State.setMem_events (s : State) (m : Memory) : (s.setMem m).events = s.events := rfl
@[simp] theorem State.setMem_input (s : State) (m : Memory) : (s.setMem m).input = s.input := rfl
@[simp] theorem State.setMem_reg (s : State) (m : Memory) (y : Nibble) : (s.setMem m).reg y = s.reg y := rfl

/-! ## setRegFlag -/

@[simp] theorem State.setRegFlag_v (s : State) (x : Nibble) (b f : Byte) : (s.setRegFlag x b f).v = ((s.v.set x.toNat b x.isLt).set 15 f) := rfl
@[simp] theorem State.setRegFlag_i (s : State) (x : Nibble) (b f : Byte) : (s.setRegFlag x b f).i = s.i := rfl
@[simp] theorem State.setRegFlag_pc (s : State) (x : Nibble) (b f : Byte) : (s.setRegFlag x b f).pc = s.pc := rfl
@[simp] theorem State.setRegFlag_mem (s : State) (x : Nibble) (b f : Byte) : (s.setRegFlag x b f).mem = s.mem := rfl
@[simp] theorem State.setRegFlag_stack (s : State) (x : Nibble) (b f : Byte) : (s.setRegFlag x b f).stack = s.stack := rfl
@[simp] theorem State.setRegFlag_sp (s : State) (x : Nibble) (b f : Byte) : (s.setRegFlag x b f).sp = s.sp := rfl
@[simp] theorem State.setRegFlag_fb (s : State) (x : Nibble) (b f : Byte) : (s.setRegFlag x b f).fb = s.fb := rfl
@[simp] theorem State.setRegFlag_dirty (s : State) (x : Nibble) (b f : Byte) : (s.setRegFlag x b f).dirty = s.dirty := rfl
@[simp] theorem State.setRegFlag_dt (s : State) (x : Nibble) (b f : Byte) : (s.setRegFlag x b f).dt = s.dt := rfl
@[simp] theorem State.setRegFlag_st (s : State) (x : Nibble) (b f : Byte) : (s.setRegFlag x b f).st = s.st := rfl
@[simp] theorem State.setRegFlag_keys (s : State) (x : Nibble) (b f : Byte) : (s.setRegFlag x b f).keys = s.keys := rfl
@[simp] theorem State.setRegFlag_phase (s : State) (x : Nibble) (b f : Byte) : (s.setRegFlag x b f).phase = s.phase := rfl
@[simp] theorem State.setRegFlag_waitReg (s : State) (x : Nibble) (b f : Byte) : (s.setRegFlag x b f).waitReg = s.waitReg := rfl
@[simp] theorem State.setRegFlag_halted (s : State) (x : Nibble) (b f : Byte) : (s.setRegFlag x b f).halted = s.halted := rfl
@[simp] theorem State.setRegFlag_errKind (s : State) (x : Nibble) (b f : Byte) : (s.setRegFlag x b f).errKind = s.errKind := rfl
@[simp] theorem State.setRegFlag_errPc (s : State) (x : Nibble) (b f : Byte) : (s.setRegFlag x b f).errPc = s.errPc := rfl
@[simp] theorem State.setRegFlag_errOp (s : State) (x : Nibble) (b f : Byte) : (s.setRegFlag x b f).errOp = s.errOp := rfl
@[simp] theorem State.setRegFlag_errAddr (s : State) (x : Nibble) (b f : Byte) : (s.setRegFlag x b f).errAddr = s.errAddr := rfl
@[simp] theorem State.setRegFlag_unkSeen (s : State) (x : Nibble) (b f : Byte) : (s.setRegFlag x b f).unkSeen = s.unkSeen := rfl
@[simp] theorem State.setRegFlag_unkPc (s : State) (x : Nibble) (b f : Byte) : (s.setRegFlag x b f).unkPc = s.unkPc := rfl
@[simp] theorem State.setRegFlag_unkOp (s : State) (x : Nibble) (b f : Byte) : (s.setRegFlag x b f).unkOp = s.unkOp := rfl
@[simp] theorem State.setRegFlag_pendingTicks (s : State) (x : Nibble) (b f : Byte) : (s.setRegFlag x b f).pendingTicks = s.pendingTicks := rfl
@[simp] theorem State.setRegFlag_inputs (s : State) (x : Nibble) (b f : Byte) : (s.setRegFlag x b f).inputs = s.inputs := rfl
@[simp] theorem State.setRegFlag_draws (s : State) (x : Nibble) (b f : Byte) : (s.setRegFlag x b f).draws = s.draws := rfl
@[simp] theorem State.setRegFlag_events (s : State) (x : Nibble) (b f : Byte) : (s.setRegFlag x b f).events = s.events := rfl
@[simp] theorem State.setRegFlag_input (s : State) (x : Nibble) (b f : Byte) : (s.setRegFlag x b f).input = s.input := rfl
@[simp] theorem State.setRegFlag_byte (s : State) (x : Nibble) (b f : Byte) (n : Nat) : (s.setRegFlag x b f).byte n = s.byte n := rfl

/-! ## loadRegsFrom -/

@[simp] theorem State.loadRegsFrom_v (s : State) (a : Nat) (x : Nibble) : (s.loadRegsFrom a x).v = Memory.loadInto s.mem a (x.toNat + 1) s.v := rfl
@[simp] theorem State.loadRegsFrom_i (s : State) (a : Nat) (x : Nibble) : (s.loadRegsFrom a x).i = s.i := rfl
@[simp] theorem State.loadRegsFrom_pc (s : State) (a : Nat) (x : Nibble) : (s.loadRegsFrom a x).pc = s.pc := rfl
@[simp] theorem State.loadRegsFrom_mem (s : State) (a : Nat) (x : Nibble) : (s.loadRegsFrom a x).mem = s.mem := rfl
@[simp] theorem State.loadRegsFrom_stack (s : State) (a : Nat) (x : Nibble) : (s.loadRegsFrom a x).stack = s.stack := rfl
@[simp] theorem State.loadRegsFrom_sp (s : State) (a : Nat) (x : Nibble) : (s.loadRegsFrom a x).sp = s.sp := rfl
@[simp] theorem State.loadRegsFrom_fb (s : State) (a : Nat) (x : Nibble) : (s.loadRegsFrom a x).fb = s.fb := rfl
@[simp] theorem State.loadRegsFrom_dirty (s : State) (a : Nat) (x : Nibble) : (s.loadRegsFrom a x).dirty = s.dirty := rfl
@[simp] theorem State.loadRegsFrom_dt (s : State) (a : Nat) (x : Nibble) : (s.loadRegsFrom a x).dt = s.dt := rfl
@[simp] theorem State.loadRegsFrom_st (s : State) (a : Nat) (x : Nibble) : (s.loadRegsFrom a x).st = s.st := rfl
@[simp] theorem State.loadRegsFrom_keys (s : State) (a : Nat) (x : Nibble) : (s.loadRegsFrom a x).keys = s.keys := rfl
@[simp] theorem State.loadRegsFrom_phase (s : State) (a : Nat) (x : Nibble) : (s.loadRegsFrom a x).phase = s.phase := rfl
@[simp] theorem State.loadRegsFrom_waitReg (s : State) (a : Nat) (x : Nibble) : (s.loadRegsFrom a x).waitReg = s.waitReg := rfl
@[simp] theorem State.loadRegsFrom_halted (s : State) (a : Nat) (x : Nibble) : (s.loadRegsFrom a x).halted = s.halted := rfl
@[simp] theorem State.loadRegsFrom_errKind (s : State) (a : Nat) (x : Nibble) : (s.loadRegsFrom a x).errKind = s.errKind := rfl
@[simp] theorem State.loadRegsFrom_errPc (s : State) (a : Nat) (x : Nibble) : (s.loadRegsFrom a x).errPc = s.errPc := rfl
@[simp] theorem State.loadRegsFrom_errOp (s : State) (a : Nat) (x : Nibble) : (s.loadRegsFrom a x).errOp = s.errOp := rfl
@[simp] theorem State.loadRegsFrom_errAddr (s : State) (a : Nat) (x : Nibble) : (s.loadRegsFrom a x).errAddr = s.errAddr := rfl
@[simp] theorem State.loadRegsFrom_unkSeen (s : State) (a : Nat) (x : Nibble) : (s.loadRegsFrom a x).unkSeen = s.unkSeen := rfl
@[simp] theorem State.loadRegsFrom_unkPc (s : State) (a : Nat) (x : Nibble) : (s.loadRegsFrom a x).unkPc = s.unkPc := rfl
@[simp] theorem State.loadRegsFrom_unkOp (s : State) (a : Nat) (x : Nibble) : (s.loadRegsFrom a x).unkOp = s.unkOp := rfl
@[simp] theorem State.loadRegsFrom_pendingTicks (s : State) (a : Nat) (x : Nibble) : (s.loadRegsFrom a x).pendingTicks = s.pendingTicks := rfl
@[simp] theorem State.loadRegsFrom_inputs (s : State) (a : Nat) (x : Nibble) : (s.loadRegsFrom a x).inputs = s.inputs := rfl
@[simp] theorem State.loadRegsFrom_draws (s : State) (a : Nat) (x : Nibble) : (s.loadRegsFrom a x).draws = s.draws := rfl
@[simp] theorem State.loadRegsFrom_events (s : State) (a : Nat) (x : Nibble) : (s.loadRegsFrom a x).events = s.events := rfl
@[simp] theorem State.loadRegsFrom_input (s : State) (a : Nat) (x : Nibble) : (s.loadRegsFrom a x).input = s.input := rfl
@[simp] theorem State.loadRegsFrom_byte (s : State) (a : Nat) (x : Nibble) (n : Nat) : (s.loadRegsFrom a x).byte n = s.byte n := rfl

/-! ## setFb -/

@[simp] theorem State.setFb_v (s : State) (fb : Vector PixelRow Config.fbHeight) : (s.setFb fb).v = s.v := rfl
@[simp] theorem State.setFb_i (s : State) (fb : Vector PixelRow Config.fbHeight) : (s.setFb fb).i = s.i := rfl
@[simp] theorem State.setFb_pc (s : State) (fb : Vector PixelRow Config.fbHeight) : (s.setFb fb).pc = s.pc := rfl
@[simp] theorem State.setFb_mem (s : State) (fb : Vector PixelRow Config.fbHeight) : (s.setFb fb).mem = s.mem := rfl
@[simp] theorem State.setFb_stack (s : State) (fb : Vector PixelRow Config.fbHeight) : (s.setFb fb).stack = s.stack := rfl
@[simp] theorem State.setFb_sp (s : State) (fb : Vector PixelRow Config.fbHeight) : (s.setFb fb).sp = s.sp := rfl
@[simp] theorem State.setFb_fb (s : State) (fb : Vector PixelRow Config.fbHeight) : (s.setFb fb).fb = fb := rfl
@[simp] theorem State.setFb_dirty (s : State) (fb : Vector PixelRow Config.fbHeight) : (s.setFb fb).dirty = true := rfl
@[simp] theorem State.setFb_dt (s : State) (fb : Vector PixelRow Config.fbHeight) : (s.setFb fb).dt = s.dt := rfl
@[simp] theorem State.setFb_st (s : State) (fb : Vector PixelRow Config.fbHeight) : (s.setFb fb).st = s.st := rfl
@[simp] theorem State.setFb_keys (s : State) (fb : Vector PixelRow Config.fbHeight) : (s.setFb fb).keys = s.keys := rfl
@[simp] theorem State.setFb_phase (s : State) (fb : Vector PixelRow Config.fbHeight) : (s.setFb fb).phase = s.phase := rfl
@[simp] theorem State.setFb_waitReg (s : State) (fb : Vector PixelRow Config.fbHeight) : (s.setFb fb).waitReg = s.waitReg := rfl
@[simp] theorem State.setFb_halted (s : State) (fb : Vector PixelRow Config.fbHeight) : (s.setFb fb).halted = s.halted := rfl
@[simp] theorem State.setFb_errKind (s : State) (fb : Vector PixelRow Config.fbHeight) : (s.setFb fb).errKind = s.errKind := rfl
@[simp] theorem State.setFb_errPc (s : State) (fb : Vector PixelRow Config.fbHeight) : (s.setFb fb).errPc = s.errPc := rfl
@[simp] theorem State.setFb_errOp (s : State) (fb : Vector PixelRow Config.fbHeight) : (s.setFb fb).errOp = s.errOp := rfl
@[simp] theorem State.setFb_errAddr (s : State) (fb : Vector PixelRow Config.fbHeight) : (s.setFb fb).errAddr = s.errAddr := rfl
@[simp] theorem State.setFb_unkSeen (s : State) (fb : Vector PixelRow Config.fbHeight) : (s.setFb fb).unkSeen = s.unkSeen := rfl
@[simp] theorem State.setFb_unkPc (s : State) (fb : Vector PixelRow Config.fbHeight) : (s.setFb fb).unkPc = s.unkPc := rfl
@[simp] theorem State.setFb_unkOp (s : State) (fb : Vector PixelRow Config.fbHeight) : (s.setFb fb).unkOp = s.unkOp := rfl
@[simp] theorem State.setFb_pendingTicks (s : State) (fb : Vector PixelRow Config.fbHeight) : (s.setFb fb).pendingTicks = s.pendingTicks := rfl
@[simp] theorem State.setFb_inputs (s : State) (fb : Vector PixelRow Config.fbHeight) : (s.setFb fb).inputs = s.inputs := rfl
@[simp] theorem State.setFb_draws (s : State) (fb : Vector PixelRow Config.fbHeight) : (s.setFb fb).draws = s.draws := rfl
@[simp] theorem State.setFb_events (s : State) (fb : Vector PixelRow Config.fbHeight) : (s.setFb fb).events = s.events := rfl
@[simp] theorem State.setFb_input (s : State) (fb : Vector PixelRow Config.fbHeight) : (s.setFb fb).input = s.input := rfl
@[simp] theorem State.setFb_byte (s : State) (fb : Vector PixelRow Config.fbHeight) (n : Nat) : (s.setFb fb).byte n = s.byte n := rfl
@[simp] theorem State.setFb_reg (s : State) (fb : Vector PixelRow Config.fbHeight) (y : Nibble) : (s.setFb fb).reg y = s.reg y := rfl

/-! ## refreshKeys -/

@[simp] theorem State.refreshKeys_v (s : State) : (s.refreshKeys).v = s.v := rfl
@[simp] theorem State.refreshKeys_i (s : State) : (s.refreshKeys).i = s.i := rfl
@[simp] theorem State.refreshKeys_pc (s : State) : (s.refreshKeys).pc = s.pc := rfl
@[simp] theorem State.refreshKeys_mem (s : State) : (s.refreshKeys).mem = s.mem := rfl
@[simp] theorem State.refreshKeys_stack (s : State) : (s.refreshKeys).stack = s.stack := rfl
@[simp] theorem State.refreshKeys_sp (s : State) : (s.refreshKeys).sp = s.sp := rfl
@[simp] theorem State.refreshKeys_fb (s : State) : (s.refreshKeys).fb = s.fb := rfl
@[simp] theorem State.refreshKeys_dirty (s : State) : (s.refreshKeys).dirty = s.dirty := rfl
@[simp] theorem State.refreshKeys_dt (s : State) : (s.refreshKeys).dt = s.dt := rfl
@[simp] theorem State.refreshKeys_st (s : State) : (s.refreshKeys).st = s.st := rfl
@[simp] theorem State.refreshKeys_keys (s : State) : (s.refreshKeys).keys = s.input.keys := rfl
@[simp] theorem State.refreshKeys_phase (s : State) : (s.refreshKeys).phase = s.phase := rfl
@[simp] theorem State.refreshKeys_waitReg (s : State) : (s.refreshKeys).waitReg = s.waitReg := rfl
@[simp] theorem State.refreshKeys_halted (s : State) : (s.refreshKeys).halted = s.halted := rfl
@[simp] theorem State.refreshKeys_errKind (s : State) : (s.refreshKeys).errKind = s.errKind := rfl
@[simp] theorem State.refreshKeys_errPc (s : State) : (s.refreshKeys).errPc = s.errPc := rfl
@[simp] theorem State.refreshKeys_errOp (s : State) : (s.refreshKeys).errOp = s.errOp := rfl
@[simp] theorem State.refreshKeys_errAddr (s : State) : (s.refreshKeys).errAddr = s.errAddr := rfl
@[simp] theorem State.refreshKeys_unkSeen (s : State) : (s.refreshKeys).unkSeen = s.unkSeen := rfl
@[simp] theorem State.refreshKeys_unkPc (s : State) : (s.refreshKeys).unkPc = s.unkPc := rfl
@[simp] theorem State.refreshKeys_unkOp (s : State) : (s.refreshKeys).unkOp = s.unkOp := rfl
@[simp] theorem State.refreshKeys_pendingTicks (s : State) : (s.refreshKeys).pendingTicks = s.pendingTicks := rfl
@[simp] theorem State.refreshKeys_inputs (s : State) : (s.refreshKeys).inputs = s.inputs := rfl
@[simp] theorem State.refreshKeys_draws (s : State) : (s.refreshKeys).draws = s.draws := rfl
@[simp] theorem State.refreshKeys_events (s : State) : (s.refreshKeys).events = s.events := rfl
@[simp] theorem State.refreshKeys_input (s : State) : (s.refreshKeys).input = s.input := rfl
@[simp] theorem State.refreshKeys_byte (s : State) (n : Nat) : (s.refreshKeys).byte n = s.byte n := rfl
@[simp] theorem State.refreshKeys_reg (s : State) (y : Nibble) : (s.refreshKeys).reg y = s.reg y := rfl

/-! ## emit -/

@[simp] theorem State.emit_v (s : State) (e : Event) : (s.emit e).v = s.v := rfl
@[simp] theorem State.emit_i (s : State) (e : Event) : (s.emit e).i = s.i := rfl
@[simp] theorem State.emit_pc (s : State) (e : Event) : (s.emit e).pc = s.pc := rfl
@[simp] theorem State.emit_mem (s : State) (e : Event) : (s.emit e).mem = s.mem := rfl
@[simp] theorem State.emit_stack (s : State) (e : Event) : (s.emit e).stack = s.stack := rfl
@[simp] theorem State.emit_sp (s : State) (e : Event) : (s.emit e).sp = s.sp := rfl
@[simp] theorem State.emit_fb (s : State) (e : Event) : (s.emit e).fb = s.fb := rfl
@[simp] theorem State.emit_dirty (s : State) (e : Event) : (s.emit e).dirty = s.dirty := rfl
@[simp] theorem State.emit_dt (s : State) (e : Event) : (s.emit e).dt = s.dt := rfl
@[simp] theorem State.emit_st (s : State) (e : Event) : (s.emit e).st = s.st := rfl
@[simp] theorem State.emit_keys (s : State) (e : Event) : (s.emit e).keys = s.keys := rfl
@[simp] theorem State.emit_phase (s : State) (e : Event) : (s.emit e).phase = s.phase := rfl
@[simp] theorem State.emit_waitReg (s : State) (e : Event) : (s.emit e).waitReg = s.waitReg := rfl
@[simp] theorem State.emit_halted (s : State) (e : Event) : (s.emit e).halted = s.halted := rfl
@[simp] theorem State.emit_errKind (s : State) (e : Event) : (s.emit e).errKind = s.errKind := rfl
@[simp] theorem State.emit_errPc (s : State) (e : Event) : (s.emit e).errPc = s.errPc := rfl
@[simp] theorem State.emit_errOp (s : State) (e : Event) : (s.emit e).errOp = s.errOp := rfl
@[simp] theorem State.emit_errAddr (s : State) (e : Event) : (s.emit e).errAddr = s.errAddr := rfl
@[simp] theorem State.emit_unkSeen (s : State) (e : Event) : (s.emit e).unkSeen = s.unkSeen := rfl
@[simp] theorem State.emit_unkPc (s : State) (e : Event) : (s.emit e).unkPc = s.unkPc := rfl
@[simp] theorem State.emit_unkOp (s : State) (e : Event) : (s.emit e).unkOp = s.unkOp := rfl
@[simp] theorem State.emit_pendingTicks (s : State) (e : Event) : (s.emit e).pendingTicks = s.pendingTicks := rfl
@[simp] theorem State.emit_inputs (s : State) (e : Event) : (s.emit e).inputs = s.inputs := rfl
@[simp] theorem State.emit_draws (s : State) (e : Event) : (s.emit e).draws = s.draws := rfl
@[simp] theorem State.emit_events (s : State) (e : Event) : (s.emit e).events = s.events ++ [e] := rfl
@[simp] theorem State.emit_input (s : State) (e : Event) : (s.emit e).input = s.input := rfl
@[simp] theorem State.emit_byte (s : State) (e : Event) (n : Nat) : (s.emit e).byte n = s.byte n := rfl
@[simp] theorem State.emit_reg (s : State) (e : Event) (y : Nibble) : (s.emit e).reg y = s.reg y := rfl

/-! ## raise -/

@[simp] theorem State.raise_v (s : State) (kind : FaultKind) (addr op : Word) : (s.raise kind addr op).v = s.v := rfl
@[simp] theorem State.raise_i (s : State) (kind : FaultKind) (addr op : Word) : (s.raise kind addr op).i = s.i := rfl
@[simp] theorem State.raise_pc (s : State) (kind : FaultKind) (addr op : Word) : (s.raise kind addr op).pc = s.pc := rfl
@[simp] theorem State.raise_mem (s : State) (kind : FaultKind) (addr op : Word) : (s.raise kind addr op).mem = s.mem := rfl
@[simp] theorem State.raise_stack (s : State) (kind : FaultKind) (addr op : Word) : (s.raise kind addr op).stack = s.stack := rfl
@[simp] theorem State.raise_sp (s : State) (kind : FaultKind) (addr op : Word) : (s.raise kind addr op).sp = s.sp := rfl
@[simp] theorem State.raise_fb (s : State) (kind : FaultKind) (addr op : Word) : (s.raise kind addr op).fb = s.fb := rfl
@[simp] theorem State.raise_dirty (s : State) (kind : FaultKind) (addr op : Word) : (s.raise kind addr op).dirty = s.dirty := rfl
@[simp] theorem State.raise_dt (s : State) (kind : FaultKind) (addr op : Word) : (s.raise kind addr op).dt = s.dt := rfl
@[simp] theorem State.raise_st (s : State) (kind : FaultKind) (addr op : Word) : (s.raise kind addr op).st = s.st := rfl
@[simp] theorem State.raise_keys (s : State) (kind : FaultKind) (addr op : Word) : (s.raise kind addr op).keys = s.keys := rfl
@[simp] theorem State.raise_phase (s : State) (kind : FaultKind) (addr op : Word) : (s.raise kind addr op).phase = s.phase := rfl
@[simp] theorem State.raise_waitReg (s : State) (kind : FaultKind) (addr op : Word) : (s.raise kind addr op).waitReg = s.waitReg := rfl
@[simp] theorem State.raise_halted (s : State) (kind : FaultKind) (addr op : Word) : (s.raise kind addr op).halted = true := rfl
@[simp] theorem State.raise_errKind (s : State) (kind : FaultKind) (addr op : Word) : (s.raise kind addr op).errKind = kind.code := rfl
@[simp] theorem State.raise_errPc (s : State) (kind : FaultKind) (addr op : Word) : (s.raise kind addr op).errPc = s.pc := rfl
@[simp] theorem State.raise_errOp (s : State) (kind : FaultKind) (addr op : Word) : (s.raise kind addr op).errOp = op := rfl
@[simp] theorem State.raise_errAddr (s : State) (kind : FaultKind) (addr op : Word) : (s.raise kind addr op).errAddr = addr := rfl
@[simp] theorem State.raise_unkSeen (s : State) (kind : FaultKind) (addr op : Word) : (s.raise kind addr op).unkSeen = s.unkSeen := rfl
@[simp] theorem State.raise_unkPc (s : State) (kind : FaultKind) (addr op : Word) : (s.raise kind addr op).unkPc = s.unkPc := rfl
@[simp] theorem State.raise_unkOp (s : State) (kind : FaultKind) (addr op : Word) : (s.raise kind addr op).unkOp = s.unkOp := rfl
@[simp] theorem State.raise_pendingTicks (s : State) (kind : FaultKind) (addr op : Word) : (s.raise kind addr op).pendingTicks = s.pendingTicks := rfl
@[simp] theorem State.raise_inputs (s : State) (kind : FaultKind) (addr op : Word) : (s.raise kind addr op).inputs = s.inputs := rfl
@[simp] theorem State.raise_draws (s : State) (kind : FaultKind) (addr op : Word) : (s.raise kind addr op).draws = s.draws := rfl
@[simp] theorem State.raise_events (s : State) (kind : FaultKind) (addr op : Word) : (s.raise kind addr op).events = s.events ++ [.faultReport kind.code s.pc op addr] := rfl
@[simp] theorem State.raise_input (s : State) (kind : FaultKind) (addr op : Word) : (s.raise kind addr op).input = s.input := rfl
@[simp] theorem State.raise_byte (s : State) (kind : FaultKind) (addr op : Word) (n : Nat) : (s.raise kind addr op).byte n = s.byte n := rfl
@[simp] theorem State.raise_reg (s : State) (kind : FaultKind) (addr op : Word) (y : Nibble) : (s.raise kind addr op).reg y = s.reg y := rfl

/-! ## push -/

@[simp] theorem State.push_v (s : State) (w : Word) (room : s.sp.val < Config.stackCapacity) : (s.push w room).v = s.v := rfl
@[simp] theorem State.push_i (s : State) (w : Word) (room : s.sp.val < Config.stackCapacity) : (s.push w room).i = s.i := rfl
@[simp] theorem State.push_pc (s : State) (w : Word) (room : s.sp.val < Config.stackCapacity) : (s.push w room).pc = s.pc := rfl
@[simp] theorem State.push_mem (s : State) (w : Word) (room : s.sp.val < Config.stackCapacity) : (s.push w room).mem = s.mem := rfl
@[simp] theorem State.push_stack (s : State) (w : Word) (room : s.sp.val < Config.stackCapacity) : (s.push w room).stack = s.stack.set s.sp.val w room := rfl
@[simp] theorem State.push_sp (s : State) (w : Word) (room : s.sp.val < Config.stackCapacity) : (s.push w room).sp = ⟨s.sp.val + 1, Nat.succ_lt_succ room⟩ := rfl
@[simp] theorem State.push_fb (s : State) (w : Word) (room : s.sp.val < Config.stackCapacity) : (s.push w room).fb = s.fb := rfl
@[simp] theorem State.push_dirty (s : State) (w : Word) (room : s.sp.val < Config.stackCapacity) : (s.push w room).dirty = s.dirty := rfl
@[simp] theorem State.push_dt (s : State) (w : Word) (room : s.sp.val < Config.stackCapacity) : (s.push w room).dt = s.dt := rfl
@[simp] theorem State.push_st (s : State) (w : Word) (room : s.sp.val < Config.stackCapacity) : (s.push w room).st = s.st := rfl
@[simp] theorem State.push_keys (s : State) (w : Word) (room : s.sp.val < Config.stackCapacity) : (s.push w room).keys = s.keys := rfl
@[simp] theorem State.push_phase (s : State) (w : Word) (room : s.sp.val < Config.stackCapacity) : (s.push w room).phase = s.phase := rfl
@[simp] theorem State.push_waitReg (s : State) (w : Word) (room : s.sp.val < Config.stackCapacity) : (s.push w room).waitReg = s.waitReg := rfl
@[simp] theorem State.push_halted (s : State) (w : Word) (room : s.sp.val < Config.stackCapacity) : (s.push w room).halted = s.halted := rfl
@[simp] theorem State.push_errKind (s : State) (w : Word) (room : s.sp.val < Config.stackCapacity) : (s.push w room).errKind = s.errKind := rfl
@[simp] theorem State.push_errPc (s : State) (w : Word) (room : s.sp.val < Config.stackCapacity) : (s.push w room).errPc = s.errPc := rfl
@[simp] theorem State.push_errOp (s : State) (w : Word) (room : s.sp.val < Config.stackCapacity) : (s.push w room).errOp = s.errOp := rfl
@[simp] theorem State.push_errAddr (s : State) (w : Word) (room : s.sp.val < Config.stackCapacity) : (s.push w room).errAddr = s.errAddr := rfl
@[simp] theorem State.push_unkSeen (s : State) (w : Word) (room : s.sp.val < Config.stackCapacity) : (s.push w room).unkSeen = s.unkSeen := rfl
@[simp] theorem State.push_unkPc (s : State) (w : Word) (room : s.sp.val < Config.stackCapacity) : (s.push w room).unkPc = s.unkPc := rfl
@[simp] theorem State.push_unkOp (s : State) (w : Word) (room : s.sp.val < Config.stackCapacity) : (s.push w room).unkOp = s.unkOp := rfl
@[simp] theorem State.push_pendingTicks (s : State) (w : Word) (room : s.sp.val < Config.stackCapacity) : (s.push w room).pendingTicks = s.pendingTicks := rfl
@[simp] theorem State.push_inputs (s : State) (w : Word) (room : s.sp.val < Config.stackCapacity) : (s.push w room).inputs = s.inputs := rfl
@[simp] theorem State.push_draws (s : State) (w : Word) (room : s.sp.val < Config.stackCapacity) : (s.push w room).draws = s.draws := rfl
@[simp] theorem State.push_events (s : State) (w : Word) (room : s.sp.val < Config.stackCapacity) : (s.push w room).events = s.events := rfl
@[simp] theorem State.push_input (s : State) (w : Word) (room : s.sp.val < Config.stackCapacity) : (s.push w room).input = s.input := rfl
@[simp] theorem State.push_byte (s : State) (w : Word) (room : s.sp.val < Config.stackCapacity) (n : Nat) : (s.push w room).byte n = s.byte n := rfl
@[simp] theorem State.push_reg (s : State) (w : Word) (room : s.sp.val < Config.stackCapacity) (y : Nibble) : (s.push w room).reg y = s.reg y := rfl

/-! ## dropTop -/

@[simp] theorem State.dropTop_v (s : State) : (s.dropTop).v = s.v := rfl
@[simp] theorem State.dropTop_i (s : State) : (s.dropTop).i = s.i := rfl
@[simp] theorem State.dropTop_pc (s : State) : (s.dropTop).pc = s.pc := rfl
@[simp] theorem State.dropTop_mem (s : State) : (s.dropTop).mem = s.mem := rfl
@[simp] theorem State.dropTop_stack (s : State) : (s.dropTop).stack = s.stack := rfl
@[simp] theorem State.dropTop_fb (s : State) : (s.dropTop).fb = s.fb := rfl
@[simp] theorem State.dropTop_dirty (s : State) : (s.dropTop).dirty = s.dirty := rfl
@[simp] theorem State.dropTop_dt (s : State) : (s.dropTop).dt = s.dt := rfl
@[simp] theorem State.dropTop_st (s : State) : (s.dropTop).st = s.st := rfl
@[simp] theorem State.dropTop_keys (s : State) : (s.dropTop).keys = s.keys := rfl
@[simp] theorem State.dropTop_phase (s : State) : (s.dropTop).phase = s.phase := rfl
@[simp] theorem State.dropTop_waitReg (s : State) : (s.dropTop).waitReg = s.waitReg := rfl
@[simp] theorem State.dropTop_halted (s : State) : (s.dropTop).halted = s.halted := rfl
@[simp] theorem State.dropTop_errKind (s : State) : (s.dropTop).errKind = s.errKind := rfl
@[simp] theorem State.dropTop_errPc (s : State) : (s.dropTop).errPc = s.errPc := rfl
@[simp] theorem State.dropTop_errOp (s : State) : (s.dropTop).errOp = s.errOp := rfl
@[simp] theorem State.dropTop_errAddr (s : State) : (s.dropTop).errAddr = s.errAddr := rfl
@[simp] theorem State.dropTop_unkSeen (s : State) : (s.dropTop).unkSeen = s.unkSeen := rfl
@[simp] theorem State.dropTop_unkPc (s : State) : (s.dropTop).unkPc = s.unkPc := rfl
@[simp] theorem State.dropTop_unkOp (s : State) : (s.dropTop).unkOp = s.unkOp := rfl
@[simp] theorem State.dropTop_pendingTicks (s : State) : (s.dropTop).pendingTicks = s.pendingTicks := rfl
@[simp] theorem State.dropTop_inputs (s : State) : (s.dropTop).inputs = s.inputs := rfl
@[simp] theorem State.dropTop_draws (s : State) : (s.dropTop).draws = s.draws := rfl
@[simp] theorem State.dropTop_events (s : State) : (s.dropTop).events = s.events := rfl
@[simp] theorem State.dropTop_input (s : State) : (s.dropTop).input = s.input := rfl
@[simp] theorem State.dropTop_byte (s : State) (n : Nat) : (s.dropTop).byte n = s.byte n := rfl
@[simp] theorem State.dropTop_reg (s : State) (y : Nibble) : (s.dropTop).reg y = s.reg y := rfl

/-! ## wake -/

@[simp] theorem State.wake_v (s : State) (k : Nibble) : (s.wake k).v = s.v.set s.waitReg.toNat (k.setWidth 8) s.waitReg.isLt := rfl
@[simp] theorem State.wake_i (s : State) (k : Nibble) : (s.wake k).i = s.i := rfl
@[simp] theorem State.wake_pc (s : State) (k : Nibble) : (s.wake k).pc = s.pc + 2#16 := rfl
@[simp] theorem State.wake_mem (s : State) (k : Nibble) : (s.wake k).mem = s.mem := rfl
@[simp] theorem State.wake_stack (s : State) (k : Nibble) : (s.wake k).stack = s.stack := rfl
@[simp] theorem State.wake_sp (s : State) (k : Nibble) : (s.wake k).sp = s.sp := rfl
@[simp] theorem State.wake_fb (s : State) (k : Nibble) : (s.wake k).fb = s.fb := rfl
@[simp] theorem State.wake_dirty (s : State) (k : Nibble) : (s.wake k).dirty = s.dirty := rfl
@[simp] theorem State.wake_dt (s : State) (k : Nibble) : (s.wake k).dt = s.dt := rfl
@[simp] theorem State.wake_st (s : State) (k : Nibble) : (s.wake k).st = s.st := rfl
@[simp] theorem State.wake_keys (s : State) (k : Nibble) : (s.wake k).keys = s.keys := rfl
@[simp] theorem State.wake_phase (s : State) (k : Nibble) : (s.wake k).phase = .ready := rfl
@[simp] theorem State.wake_waitReg (s : State) (k : Nibble) : (s.wake k).waitReg = s.waitReg := rfl
@[simp] theorem State.wake_halted (s : State) (k : Nibble) : (s.wake k).halted = s.halted := rfl
@[simp] theorem State.wake_errKind (s : State) (k : Nibble) : (s.wake k).errKind = s.errKind := rfl
@[simp] theorem State.wake_errPc (s : State) (k : Nibble) : (s.wake k).errPc = s.errPc := rfl
@[simp] theorem State.wake_errOp (s : State) (k : Nibble) : (s.wake k).errOp = s.errOp := rfl
@[simp] theorem State.wake_errAddr (s : State) (k : Nibble) : (s.wake k).errAddr = s.errAddr := rfl
@[simp] theorem State.wake_unkSeen (s : State) (k : Nibble) : (s.wake k).unkSeen = s.unkSeen := rfl
@[simp] theorem State.wake_unkPc (s : State) (k : Nibble) : (s.wake k).unkPc = s.unkPc := rfl
@[simp] theorem State.wake_unkOp (s : State) (k : Nibble) : (s.wake k).unkOp = s.unkOp := rfl
@[simp] theorem State.wake_pendingTicks (s : State) (k : Nibble) : (s.wake k).pendingTicks = s.pendingTicks := rfl
@[simp] theorem State.wake_inputs (s : State) (k : Nibble) : (s.wake k).inputs = s.inputs := rfl
@[simp] theorem State.wake_draws (s : State) (k : Nibble) : (s.wake k).draws = s.draws := rfl
@[simp] theorem State.wake_events (s : State) (k : Nibble) : (s.wake k).events = s.events := rfl
@[simp] theorem State.wake_input (s : State) (k : Nibble) : (s.wake k).input = s.input := rfl
@[simp] theorem State.wake_byte (s : State) (k : Nibble) (n : Nat) : (s.wake k).byte n = s.byte n := rfl

/-! ## reportUnknown -/

@[simp] theorem State.reportUnknown_v (s : State) (op : Word) : (s.reportUnknown op).v = s.v := rfl
@[simp] theorem State.reportUnknown_i (s : State) (op : Word) : (s.reportUnknown op).i = s.i := rfl
@[simp] theorem State.reportUnknown_pc (s : State) (op : Word) : (s.reportUnknown op).pc = s.pc + 2#16 := rfl
@[simp] theorem State.reportUnknown_mem (s : State) (op : Word) : (s.reportUnknown op).mem = s.mem := rfl
@[simp] theorem State.reportUnknown_stack (s : State) (op : Word) : (s.reportUnknown op).stack = s.stack := rfl
@[simp] theorem State.reportUnknown_sp (s : State) (op : Word) : (s.reportUnknown op).sp = s.sp := rfl
@[simp] theorem State.reportUnknown_fb (s : State) (op : Word) : (s.reportUnknown op).fb = s.fb := rfl
@[simp] theorem State.reportUnknown_dirty (s : State) (op : Word) : (s.reportUnknown op).dirty = s.dirty := rfl
@[simp] theorem State.reportUnknown_dt (s : State) (op : Word) : (s.reportUnknown op).dt = s.dt := rfl
@[simp] theorem State.reportUnknown_st (s : State) (op : Word) : (s.reportUnknown op).st = s.st := rfl
@[simp] theorem State.reportUnknown_keys (s : State) (op : Word) : (s.reportUnknown op).keys = s.keys := rfl
@[simp] theorem State.reportUnknown_phase (s : State) (op : Word) : (s.reportUnknown op).phase = s.phase := rfl
@[simp] theorem State.reportUnknown_waitReg (s : State) (op : Word) : (s.reportUnknown op).waitReg = s.waitReg := rfl
@[simp] theorem State.reportUnknown_halted (s : State) (op : Word) : (s.reportUnknown op).halted = s.halted := rfl
@[simp] theorem State.reportUnknown_errKind (s : State) (op : Word) : (s.reportUnknown op).errKind = s.errKind := rfl
@[simp] theorem State.reportUnknown_errPc (s : State) (op : Word) : (s.reportUnknown op).errPc = s.errPc := rfl
@[simp] theorem State.reportUnknown_errOp (s : State) (op : Word) : (s.reportUnknown op).errOp = s.errOp := rfl
@[simp] theorem State.reportUnknown_errAddr (s : State) (op : Word) : (s.reportUnknown op).errAddr = s.errAddr := rfl
@[simp] theorem State.reportUnknown_unkSeen (s : State) (op : Word) : (s.reportUnknown op).unkSeen = true := rfl
@[simp] theorem State.reportUnknown_unkPc (s : State) (op : Word) : (s.reportUnknown op).unkPc = s.pc := rfl
@[simp] theorem State.reportUnknown_unkOp (s : State) (op : Word) : (s.reportUnknown op).unkOp = op := rfl
@[simp] theorem State.reportUnknown_pendingTicks (s : State) (op : Word) : (s.reportUnknown op).pendingTicks = s.pendingTicks := rfl
@[simp] theorem State.reportUnknown_inputs (s : State) (op : Word) : (s.reportUnknown op).inputs = s.inputs := rfl
@[simp] theorem State.reportUnknown_draws (s : State) (op : Word) : (s.reportUnknown op).draws = s.draws := rfl
@[simp] theorem State.reportUnknown_events (s : State) (op : Word) : (s.reportUnknown op).events = s.events ++ [.unknownOpcodeReport s.pc op] := rfl
@[simp] theorem State.reportUnknown_input (s : State) (op : Word) : (s.reportUnknown op).input = s.input := rfl
@[simp] theorem State.reportUnknown_byte (s : State) (op : Word) (n : Nat) : (s.reportUnknown op).byte n = s.byte n := rfl
@[simp] theorem State.reportUnknown_reg (s : State) (op : Word) (y : Nibble) : (s.reportUnknown op).reg y = s.reg y := rfl

/-! ## countTicks -/

@[simp] theorem State.countTicks_v (s : State) : (s.countTicks).v = s.v := rfl
@[simp] theorem State.countTicks_i (s : State) : (s.countTicks).i = s.i := rfl
@[simp] theorem State.countTicks_pc (s : State) : (s.countTicks).pc = s.pc := rfl
@[simp] theorem State.countTicks_mem (s : State) : (s.countTicks).mem = s.mem := rfl
@[simp] theorem State.countTicks_stack (s : State) : (s.countTicks).stack = s.stack := rfl
@[simp] theorem State.countTicks_sp (s : State) : (s.countTicks).sp = s.sp := rfl
@[simp] theorem State.countTicks_fb (s : State) : (s.countTicks).fb = s.fb := rfl
@[simp] theorem State.countTicks_dirty (s : State) : (s.countTicks).dirty = s.dirty := rfl
@[simp] theorem State.countTicks_dt (s : State) : (s.countTicks).dt = s.dt := rfl
@[simp] theorem State.countTicks_st (s : State) : (s.countTicks).st = s.st := rfl
@[simp] theorem State.countTicks_keys (s : State) : (s.countTicks).keys = s.keys := rfl
@[simp] theorem State.countTicks_phase (s : State) : (s.countTicks).phase = s.phase := rfl
@[simp] theorem State.countTicks_waitReg (s : State) : (s.countTicks).waitReg = s.waitReg := rfl
@[simp] theorem State.countTicks_halted (s : State) : (s.countTicks).halted = s.halted := rfl
@[simp] theorem State.countTicks_errKind (s : State) : (s.countTicks).errKind = s.errKind := rfl
@[simp] theorem State.countTicks_errPc (s : State) : (s.countTicks).errPc = s.errPc := rfl
@[simp] theorem State.countTicks_errOp (s : State) : (s.countTicks).errOp = s.errOp := rfl
@[simp] theorem State.countTicks_errAddr (s : State) : (s.countTicks).errAddr = s.errAddr := rfl
@[simp] theorem State.countTicks_unkSeen (s : State) : (s.countTicks).unkSeen = s.unkSeen := rfl
@[simp] theorem State.countTicks_unkPc (s : State) : (s.countTicks).unkPc = s.unkPc := rfl
@[simp] theorem State.countTicks_unkOp (s : State) : (s.countTicks).unkOp = s.unkOp := rfl
@[simp] theorem State.countTicks_pendingTicks (s : State) : (s.countTicks).pendingTicks = s.pendingTicks + s.input.ticks := rfl
@[simp] theorem State.countTicks_inputs (s : State) : (s.countTicks).inputs = s.inputs := rfl
@[simp] theorem State.countTicks_draws (s : State) : (s.countTicks).draws = s.draws := rfl
@[simp] theorem State.countTicks_events (s : State) : (s.countTicks).events = s.events := rfl
@[simp] theorem State.countTicks_input (s : State) : (s.countTicks).input = s.input := rfl
@[simp] theorem State.countTicks_byte (s : State) (n : Nat) : (s.countTicks).byte n = s.byte n := rfl
@[simp] theorem State.countTicks_reg (s : State) (y : Nibble) : (s.countTicks).reg y = s.reg y := rfl

/-! ## timerTick -/

@[simp] theorem State.timerTick_v (s : State) : (s.timerTick).v = s.v := rfl
@[simp] theorem State.timerTick_i (s : State) : (s.timerTick).i = s.i := rfl
@[simp] theorem State.timerTick_pc (s : State) : (s.timerTick).pc = s.pc := rfl
@[simp] theorem State.timerTick_mem (s : State) : (s.timerTick).mem = s.mem := rfl
@[simp] theorem State.timerTick_stack (s : State) : (s.timerTick).stack = s.stack := rfl
@[simp] theorem State.timerTick_sp (s : State) : (s.timerTick).sp = s.sp := rfl
@[simp] theorem State.timerTick_fb (s : State) : (s.timerTick).fb = s.fb := rfl
@[simp] theorem State.timerTick_dirty (s : State) : (s.timerTick).dirty = s.dirty := rfl
@[simp] theorem State.timerTick_dt (s : State) : (s.timerTick).dt = countDown s.dt s.pendingTicks := rfl
@[simp] theorem State.timerTick_st (s : State) : (s.timerTick).st = countDown s.st s.pendingTicks := rfl
@[simp] theorem State.timerTick_keys (s : State) : (s.timerTick).keys = s.keys := rfl
@[simp] theorem State.timerTick_phase (s : State) : (s.timerTick).phase = s.phase := rfl
@[simp] theorem State.timerTick_waitReg (s : State) : (s.timerTick).waitReg = s.waitReg := rfl
@[simp] theorem State.timerTick_halted (s : State) : (s.timerTick).halted = s.halted := rfl
@[simp] theorem State.timerTick_errKind (s : State) : (s.timerTick).errKind = s.errKind := rfl
@[simp] theorem State.timerTick_errPc (s : State) : (s.timerTick).errPc = s.errPc := rfl
@[simp] theorem State.timerTick_errOp (s : State) : (s.timerTick).errOp = s.errOp := rfl
@[simp] theorem State.timerTick_errAddr (s : State) : (s.timerTick).errAddr = s.errAddr := rfl
@[simp] theorem State.timerTick_unkSeen (s : State) : (s.timerTick).unkSeen = s.unkSeen := rfl
@[simp] theorem State.timerTick_unkPc (s : State) : (s.timerTick).unkPc = s.unkPc := rfl
@[simp] theorem State.timerTick_unkOp (s : State) : (s.timerTick).unkOp = s.unkOp := rfl
@[simp] theorem State.timerTick_pendingTicks (s : State) : (s.timerTick).pendingTicks = 0 := rfl
@[simp] theorem State.timerTick_inputs (s : State) : (s.timerTick).inputs = s.inputs := rfl
@[simp] theorem State.timerTick_draws (s : State) : (s.timerTick).draws = s.draws := rfl
@[simp] theorem State.timerTick_events (s : State) : (s.timerTick).events = if beepsWithin s.st s.pendingTicks then s.events ++ [.beep] else s.events := rfl
@[simp] theorem State.timerTick_input (s : State) : (s.timerTick).input = s.input := rfl
@[simp] theorem State.timerTick_byte (s : State) (n : Nat) : (s.timerTick).byte n = s.byte n := rfl
@[simp] theorem State.timerTick_reg (s : State) (y : Nibble) : (s.timerTick).reg y = s.reg y := rfl

/-! ## frameReady -/

@[simp] theorem State.frameReady_v (s : State) : (s.frameReady).v = s.v := rfl
@[simp] theorem State.frameReady_i (s : State) : (s.frameReady).i = s.i := rfl
@[simp] theorem State.frameReady_pc (s : State) : (s.frameReady).pc = s.pc := rfl
@[simp] theorem State.frameReady_mem (s : State) : (s.frameReady).mem = s.mem := rfl
@[simp] theorem State.frameReady_stack (s : State) : (s.frameReady).stack = s.stack := rfl
@[simp] theorem State.frameReady_sp (s : State) : (s.frameReady).sp = s.sp := rfl
@[simp] theorem State.frameReady_fb (s : State) : (s.frameReady).fb = s.fb := rfl
@[simp] theorem State.frameReady_dirty (s : State) : (s.frameReady).dirty = false := rfl
@[simp] theorem State.frameReady_dt (s : State) : (s.frameReady).dt = s.dt := rfl
@[simp] theorem State.frameReady_st (s : State) : (s.frameReady).st = s.st := rfl
@[simp] theorem State.frameReady_keys (s : State) : (s.frameReady).keys = s.keys := rfl
@[simp] theorem State.frameReady_phase (s : State) : (s.frameReady).phase = s.phase := rfl
@[simp] theorem State.frameReady_waitReg (s : State) : (s.frameReady).waitReg = s.waitReg := rfl
@[simp] theorem State.frameReady_halted (s : State) : (s.frameReady).halted = s.halted := rfl
@[simp] theorem State.frameReady_errKind (s : State) : (s.frameReady).errKind = s.errKind := rfl
@[simp] theorem State.frameReady_errPc (s : State) : (s.frameReady).errPc = s.errPc := rfl
@[simp] theorem State.frameReady_errOp (s : State) : (s.frameReady).errOp = s.errOp := rfl
@[simp] theorem State.frameReady_errAddr (s : State) : (s.frameReady).errAddr = s.errAddr := rfl
@[simp] theorem State.frameReady_unkSeen (s : State) : (s.frameReady).unkSeen = s.unkSeen := rfl
@[simp] theorem State.frameReady_unkPc (s : State) : (s.frameReady).unkPc = s.unkPc := rfl
@[simp] theorem State.frameReady_unkOp (s : State) : (s.frameReady).unkOp = s.unkOp := rfl
@[simp] theorem State.frameReady_pendingTicks (s : State) : (s.frameReady).pendingTicks = s.pendingTicks := rfl
@[simp] theorem State.frameReady_inputs (s : State) : (s.frameReady).inputs = s.inputs := rfl
@[simp] theorem State.frameReady_draws (s : State) : (s.frameReady).draws = s.draws := rfl
@[simp] theorem State.frameReady_events (s : State) : (s.frameReady).events = if s.dirty then s.events ++ [.frameReady s.fb] else s.events := rfl
@[simp] theorem State.frameReady_input (s : State) : (s.frameReady).input = s.input := rfl
@[simp] theorem State.frameReady_byte (s : State) (n : Nat) : (s.frameReady).byte n = s.byte n := rfl
@[simp] theorem State.frameReady_reg (s : State) (y : Nibble) : (s.frameReady).reg y = s.reg y := rfl

/-! ## consumeInput -/

@[simp] theorem State.consumeInput_v (s : State) : (s.consumeInput).v = s.v := rfl
@[simp] theorem State.consumeInput_i (s : State) : (s.consumeInput).i = s.i := rfl
@[simp] theorem State.consumeInput_pc (s : State) : (s.consumeInput).pc = s.pc := rfl
@[simp] theorem State.consumeInput_mem (s : State) : (s.consumeInput).mem = s.mem := rfl
@[simp] theorem State.consumeInput_stack (s : State) : (s.consumeInput).stack = s.stack := rfl
@[simp] theorem State.consumeInput_sp (s : State) : (s.consumeInput).sp = s.sp := rfl
@[simp] theorem State.consumeInput_fb (s : State) : (s.consumeInput).fb = s.fb := rfl
@[simp] theorem State.consumeInput_dirty (s : State) : (s.consumeInput).dirty = s.dirty := rfl
@[simp] theorem State.consumeInput_dt (s : State) : (s.consumeInput).dt = s.dt := rfl
@[simp] theorem State.consumeInput_st (s : State) : (s.consumeInput).st = s.st := rfl
@[simp] theorem State.consumeInput_keys (s : State) : (s.consumeInput).keys = s.keys := rfl
@[simp] theorem State.consumeInput_phase (s : State) : (s.consumeInput).phase = s.phase := rfl
@[simp] theorem State.consumeInput_waitReg (s : State) : (s.consumeInput).waitReg = s.waitReg := rfl
@[simp] theorem State.consumeInput_halted (s : State) : (s.consumeInput).halted = s.halted := rfl
@[simp] theorem State.consumeInput_errKind (s : State) : (s.consumeInput).errKind = s.errKind := rfl
@[simp] theorem State.consumeInput_errPc (s : State) : (s.consumeInput).errPc = s.errPc := rfl
@[simp] theorem State.consumeInput_errOp (s : State) : (s.consumeInput).errOp = s.errOp := rfl
@[simp] theorem State.consumeInput_errAddr (s : State) : (s.consumeInput).errAddr = s.errAddr := rfl
@[simp] theorem State.consumeInput_unkSeen (s : State) : (s.consumeInput).unkSeen = s.unkSeen := rfl
@[simp] theorem State.consumeInput_unkPc (s : State) : (s.consumeInput).unkPc = s.unkPc := rfl
@[simp] theorem State.consumeInput_unkOp (s : State) : (s.consumeInput).unkOp = s.unkOp := rfl
@[simp] theorem State.consumeInput_pendingTicks (s : State) : (s.consumeInput).pendingTicks = s.pendingTicks := rfl
@[simp] theorem State.consumeInput_inputs (s : State) : (s.consumeInput).inputs = s.inputs.tail := rfl
@[simp] theorem State.consumeInput_draws (s : State) : (s.consumeInput).draws = s.draws + 1 := rfl
@[simp] theorem State.consumeInput_events (s : State) : (s.consumeInput).events = s.events := rfl
@[simp] theorem State.consumeInput_byte (s : State) (n : Nat) : (s.consumeInput).byte n = s.byte n := rfl
@[simp] theorem State.consumeInput_reg (s : State) (y : Nibble) : (s.consumeInput).reg y = s.reg y := rfl

end Sys2Proof.Machine
end

