-- ==== Sys2Proof/Laws/Ops.lean ====
section
/-! SUPPORT. What each shared operation over registers, the stack, the outside, faults and block moves does, said once. -/

namespace Sys2Proof.Machine

/-! ## Registers -/

/-- Two register numbers are equal when their values are. -/
theorem nibble_toNat_ne {x y : Nibble} (h : x ≠ y) : x.toNat ≠ y.toNat := fun e => h (BitVec.eq_of_toNat_eq e)

@[simp] theorem State.reg_setReg_same (s : State) (x : Nibble) (b : Byte) : (s.setReg x b).reg x = b := by
  simp [State.reg]

theorem State.reg_setReg_other (s : State) {x y : Nibble} (b : Byte) (h : y ≠ x) :
    (s.setReg x b).reg y = s.reg y := by
  have := nibble_toNat_ne h
  simp only [State.reg, State.setReg_v]
  exact Vector.getElem_set_ne _ _ (by omega)

/-- The flag is what `V[F]` holds after a result and a flag are written, also with `X` = 15 (R111). -/
@[simp] theorem State.reg_setRegFlag_flag (s : State) (x : Nibble) (b f : Byte) :
    (s.setRegFlag x b f).reg regF = f := State.reg_setReg_same _ _ _

theorem State.reg_setRegFlag_result (s : State) {x : Nibble} (b f : Byte) (h : x ≠ regF) :
    (s.setRegFlag x b f).reg x = b := by
  rw [State.setRegFlag, State.reg_setReg_other _ _ h, State.reg_setReg_same]

theorem State.reg_setRegFlag_other (s : State) {x y : Nibble} (b f : Byte) (h : y ≠ x) (hF : y ≠ regF) :
    (s.setRegFlag x b f).reg y = s.reg y := by
  rw [State.setRegFlag, State.reg_setReg_other _ _ hF, State.reg_setReg_other _ _ h]

/-- A register after LOAD_REGS' block move. -/
theorem State.reg_loadRegsFrom (s : State) (a : Nat) (x y : Nibble) :
    (s.loadRegsFrom a x).reg y = if y.toNat ≤ x.toNat then s.byte (a + y.toNat) else s.reg y := by
  simp only [State.reg, State.loadRegsFrom_v, State.byte, Memory.getElem_loadInto, Nat.lt_succ_iff]

@[simp] theorem State.length_regsUpTo (s : State) (x : Nibble) : (s.regsUpTo x).length = x.toNat + 1 := by
  have := x.isLt
  simp [State.regsUpTo]
  omega

/-- Byte `r` of the registers STORE_REGS moves is `V[r]`. -/
theorem State.getElem_regsUpTo (s : State) (x : Nibble) (r : Nat) (h : r < (s.regsUpTo x).length)
    (hr : r < Config.numRegs) : (s.regsUpTo x)[r] = s.v[r] := by
  simp [State.regsUpTo]

/-! ## Bounds and faults -/

theorem outOfRange_iff {base n : Nat} : outOfRange base n = true ↔ 0 < n ∧ Config.memorySize < base + n := by
  simp [outOfRange]

theorem outOfRange_false {base n : Nat} : outOfRange base n = false ↔ n = 0 ∨ base + n ≤ Config.memorySize := by
  rw [Bool.eq_false_iff, Ne, outOfRange_iff]; omega

/-- The offending address is `max(base, 4096)` as a number. -/
theorem offendingAddress_toNat (base : Word) : (offendingAddress base).toNat = max base.toNat 4096 := by
  have := base.isLt
  simp only [offendingAddress, BitVec.toNat_ofNat]
  exact Nat.mod_eq_of_lt (by simp only [Config.memorySize]; omega)

/-- Everything an access through `I` can answer: the fault of R206 or the instruction's own result. -/
theorem State.accessAtIndex_cases {s t u : State} {n : Nat} {op : Word} (h : s.accessAtIndex n op t = .next u) :
    (0 < n ∧ Config.memorySize < s.i.toNat + n ∧
      u = s.raise .outOfBoundsMemoryAccess (offendingAddress s.i) op) ∨
    ((n = 0 ∨ s.i.toNat + n ≤ Config.memorySize) ∧ u = t) := by
  simp only [State.accessAtIndex, Host.Outcome.next.injEq] at h
  cases ho : outOfRange s.i.toNat n with
  | true => exact .inl ⟨(outOfRange_iff.1 ho).1, (outOfRange_iff.1 ho).2, by simpa [ho] using h.symm⟩
  | false => exact .inr ⟨outOfRange_false.1 ho, by simpa [ho] using h.symm⟩

/-- In range, an access gives the instruction's own result. -/
theorem State.accessAtIndex_inside {s t : State} {n : Nat} {op : Word}
    (h : n = 0 ∨ s.i.toNat + n ≤ Config.memorySize) : s.accessAtIndex n op t = .next t := by
  simp [State.accessAtIndex, outOfRange_false.2 h]

/-- Out of range, an access takes the fault. -/
theorem State.accessAtIndex_outside {s t : State} {n : Nat} {op : Word} (h0 : 0 < n)
    (h : Config.memorySize < s.i.toNat + n) :
    s.accessAtIndex n op t = .next (s.raise .outOfBoundsMemoryAccess (offendingAddress s.i) op) := by
  simp [State.accessAtIndex, outOfRange_iff.2 ⟨h0, h⟩]

/-! ## The stack -/

@[simp] theorem State.dropTop_sp_val (s : State) : s.dropTop.sp.val = s.sp.val - 1 := rfl

/-- A pop gives what the push before it stored. -/
theorem State.top_push (s : State) (w : Word) (room : s.sp.val < Config.stackCapacity)
    (live : 0 < (s.push w room).sp.val) : (s.push w room).top live = w := by
  simp [State.top, State.push]

/-! ## The outside -/

theorem State.input_listed {s : State} {r : StepInput} {rest : List StepInput} (h : s.inputs = r :: rest) :
    s.input = r := by simp [State.input, h]

theorem State.input_free {s : State} (h : s.inputs = []) : s.input = Config.freeInput s.draws := by
  simp [State.input, h]

end Sys2Proof.Machine
end

