-- ==== Sys2Proof/Laws/Cycle.lean ====
section
/-! SUPPORT. What the end of a cycle leaves alone, and everything a step can do. -/

namespace Sys2Proof.Machine

/-! ## The end of a cycle -/

/-- After a fatal fault the rest of the cycle is abandoned (R108). -/
theorem State.settle_of_halted {s : State} (h : s.halted = true) : s.settle = s := by simp [State.settle, h]

/-- In WAIT_KEY nothing follows (R105). -/
theorem State.settle_of_waiting {s : State} (h : s.halted = false) (hp : s.phase = .waitKey) :
    s.settle = s := by simp [State.settle, h, hp]

/-- Otherwise TIMER_TICK and the way back to READY (R106, R107). -/
theorem State.settle_of_ready {s : State} (h : s.halted = false) (hp : s.phase = .ready) :
    s.settle = s.timerTick.frameReady := by simp [State.settle, h, hp]

/-- The three ways a cycle ends. -/
theorem State.settle_cases (s : State) :
    (s.halted = true ∧ s.settle = s) ∨ (s.halted = false ∧ s.phase = .waitKey ∧ s.settle = s) ∨
    (s.halted = false ∧ s.phase = .ready ∧ s.settle = s.timerTick.frameReady) := by
  cases h : s.halted with
  | true => exact .inl ⟨rfl, State.settle_of_halted h⟩
  | false =>
    cases hp : s.phase with
    | waitKey => exact .inr (.inl ⟨rfl, rfl, State.settle_of_waiting h hp⟩)
    | ready => exact .inr (.inr ⟨rfl, rfl, State.settle_of_ready h hp⟩)

@[simp] theorem State.settle_v (s : State) : s.settle.v = s.v := by
  obtain ⟨_, h⟩ | ⟨_, _, h⟩ | ⟨_, _, h⟩ := s.settle_cases <;> rw [h]; rfl
@[simp] theorem State.settle_i (s : State) : s.settle.i = s.i := by
  obtain ⟨_, h⟩ | ⟨_, _, h⟩ | ⟨_, _, h⟩ := s.settle_cases <;> rw [h]; rfl
@[simp] theorem State.settle_pc (s : State) : s.settle.pc = s.pc := by
  obtain ⟨_, h⟩ | ⟨_, _, h⟩ | ⟨_, _, h⟩ := s.settle_cases <;> rw [h]; rfl
@[simp] theorem State.settle_mem (s : State) : s.settle.mem = s.mem := by
  obtain ⟨_, h⟩ | ⟨_, _, h⟩ | ⟨_, _, h⟩ := s.settle_cases <;> rw [h]; rfl
@[simp] theorem State.settle_stack (s : State) : s.settle.stack = s.stack := by
  obtain ⟨_, h⟩ | ⟨_, _, h⟩ | ⟨_, _, h⟩ := s.settle_cases <;> rw [h]; rfl
@[simp] theorem State.settle_sp (s : State) : s.settle.sp = s.sp := by
  obtain ⟨_, h⟩ | ⟨_, _, h⟩ | ⟨_, _, h⟩ := s.settle_cases <;> rw [h]; rfl
@[simp] theorem State.settle_fb (s : State) : s.settle.fb = s.fb := by
  obtain ⟨_, h⟩ | ⟨_, _, h⟩ | ⟨_, _, h⟩ := s.settle_cases <;> rw [h]; rfl
@[simp] theorem State.settle_keys (s : State) : s.settle.keys = s.keys := by
  obtain ⟨_, h⟩ | ⟨_, _, h⟩ | ⟨_, _, h⟩ := s.settle_cases <;> rw [h]; rfl
@[simp] theorem State.settle_phase (s : State) : s.settle.phase = s.phase := by
  obtain ⟨_, h⟩ | ⟨_, _, h⟩ | ⟨_, _, h⟩ := s.settle_cases <;> rw [h]; rfl
@[simp] theorem State.settle_waitReg (s : State) : s.settle.waitReg = s.waitReg := by
  obtain ⟨_, h⟩ | ⟨_, _, h⟩ | ⟨_, _, h⟩ := s.settle_cases <;> rw [h]; rfl
@[simp] theorem State.settle_halted (s : State) : s.settle.halted = s.halted := by
  obtain ⟨_, h⟩ | ⟨_, _, h⟩ | ⟨_, _, h⟩ := s.settle_cases <;> rw [h]; rfl
@[simp] theorem State.settle_errKind (s : State) : s.settle.errKind = s.errKind := by
  obtain ⟨_, h⟩ | ⟨_, _, h⟩ | ⟨_, _, h⟩ := s.settle_cases <;> rw [h]; rfl
@[simp] theorem State.settle_errPc (s : State) : s.settle.errPc = s.errPc := by
  obtain ⟨_, h⟩ | ⟨_, _, h⟩ | ⟨_, _, h⟩ := s.settle_cases <;> rw [h]; rfl
@[simp] theorem State.settle_errOp (s : State) : s.settle.errOp = s.errOp := by
  obtain ⟨_, h⟩ | ⟨_, _, h⟩ | ⟨_, _, h⟩ := s.settle_cases <;> rw [h]; rfl
@[simp] theorem State.settle_errAddr (s : State) : s.settle.errAddr = s.errAddr := by
  obtain ⟨_, h⟩ | ⟨_, _, h⟩ | ⟨_, _, h⟩ := s.settle_cases <;> rw [h]; rfl
@[simp] theorem State.settle_unkSeen (s : State) : s.settle.unkSeen = s.unkSeen := by
  obtain ⟨_, h⟩ | ⟨_, _, h⟩ | ⟨_, _, h⟩ := s.settle_cases <;> rw [h]; rfl
@[simp] theorem State.settle_unkPc (s : State) : s.settle.unkPc = s.unkPc := by
  obtain ⟨_, h⟩ | ⟨_, _, h⟩ | ⟨_, _, h⟩ := s.settle_cases <;> rw [h]; rfl
@[simp] theorem State.settle_unkOp (s : State) : s.settle.unkOp = s.unkOp := by
  obtain ⟨_, h⟩ | ⟨_, _, h⟩ | ⟨_, _, h⟩ := s.settle_cases <;> rw [h]; rfl

@[simp] theorem State.endCycle_v (s : State) : s.endCycle.v = s.v := State.settle_v s.countTicks
@[simp] theorem State.endCycle_i (s : State) : s.endCycle.i = s.i := State.settle_i s.countTicks
@[simp] theorem State.endCycle_pc (s : State) : s.endCycle.pc = s.pc := State.settle_pc s.countTicks
@[simp] theorem State.endCycle_mem (s : State) : s.endCycle.mem = s.mem := State.settle_mem s.countTicks
@[simp] theorem State.endCycle_stack (s : State) : s.endCycle.stack = s.stack := State.settle_stack s.countTicks
@[simp] theorem State.endCycle_sp (s : State) : s.endCycle.sp = s.sp := State.settle_sp s.countTicks
@[simp] theorem State.endCycle_fb (s : State) : s.endCycle.fb = s.fb := State.settle_fb s.countTicks
@[simp] theorem State.endCycle_keys (s : State) : s.endCycle.keys = s.keys := State.settle_keys s.countTicks
@[simp] theorem State.endCycle_phase (s : State) : s.endCycle.phase = s.phase := State.settle_phase s.countTicks
@[simp] theorem State.endCycle_waitReg (s : State) : s.endCycle.waitReg = s.waitReg := State.settle_waitReg s.countTicks
@[simp] theorem State.endCycle_halted (s : State) : s.endCycle.halted = s.halted := State.settle_halted s.countTicks
@[simp] theorem State.endCycle_errKind (s : State) : s.endCycle.errKind = s.errKind := State.settle_errKind s.countTicks
@[simp] theorem State.endCycle_errPc (s : State) : s.endCycle.errPc = s.errPc := State.settle_errPc s.countTicks
@[simp] theorem State.endCycle_errOp (s : State) : s.endCycle.errOp = s.errOp := State.settle_errOp s.countTicks
@[simp] theorem State.endCycle_errAddr (s : State) : s.endCycle.errAddr = s.errAddr := State.settle_errAddr s.countTicks
@[simp] theorem State.endCycle_unkSeen (s : State) : s.endCycle.unkSeen = s.unkSeen := State.settle_unkSeen s.countTicks
@[simp] theorem State.endCycle_unkPc (s : State) : s.endCycle.unkPc = s.unkPc := State.settle_unkPc s.countTicks
@[simp] theorem State.endCycle_unkOp (s : State) : s.endCycle.unkOp = s.unkOp := State.settle_unkOp s.countTicks

@[simp] theorem State.endCycle_reg (s : State) (x : Nibble) : s.endCycle.reg x = s.reg x := by
  simp only [State.reg, State.endCycle_v]

@[simp] theorem State.endCycle_byte (s : State) (a : Nat) : s.endCycle.byte a = s.byte a := by
  simp only [State.byte, State.endCycle_mem]

/-! ## TIMER_TICK -/

/-- A timer after `k` ticks, as a number: down by `k`, clamped at 0 (R29, R211). -/
theorem countDown_eq (t : Byte) (k : Nat) : countDown t k = BitVec.ofNat 8 (t.toNat - k) := by
  unfold countDown
  split
  · subst_vars; simp
  · rfl

/-- The sound timer beeps within `k` ticks exactly when it is above 0 and at most `k` (R212). -/
theorem beepsWithin_eq (t : Byte) (k : Nat) : beepsWithin t k = decide (0 < t.toNat ∧ t.toNat ≤ k) := by
  unfold beepsWithin
  split
  · subst_vars; simp
  · rename_i h
    have : t.toNat ≠ 0 := fun e => h (BitVec.eq_of_toNat_eq (by simpa using e))
    simp
    omega

/-- The end of a cycle at READY (R106, R107). -/
theorem State.endCycle_of_ready {s : State} (h : s.halted = false) (hp : s.phase = .ready) :
    s.endCycle = s.countTicks.timerTick.frameReady.consumeInput := by
  rw [State.endCycle, State.settle_of_ready (s := s.countTicks) h hp]

/-- The end of a step in WAIT_KEY: the ticks are counted and the inputs used up (R105, R106). -/
theorem State.endCycle_of_waiting {s : State} (h : s.halted = false) (hp : s.phase = .waitKey) :
    s.endCycle = s.countTicks.consumeInput := by
  rw [State.endCycle, State.settle_of_waiting (s := s.countTicks) h hp]

/-- The end of a step that halted the core: the ticks that elapsed before are counted and the inputs used up (R108,
R213). -/
theorem State.endCycle_of_halted {s : State} (h : s.halted = true) : s.endCycle = s.countTicks.consumeInput := by
  rw [State.endCycle, State.settle_of_halted (s := s.countTicks) h]

/-- The three ways a step ends. -/
theorem State.endCycle_cases (s : State) :
    (s.halted = true ∧ s.endCycle = s.countTicks.consumeInput) ∨
    (s.halted = false ∧ s.phase = .waitKey ∧ s.endCycle = s.countTicks.consumeInput) ∨
    (s.halted = false ∧ s.phase = .ready ∧ s.endCycle = s.countTicks.timerTick.frameReady.consumeInput) := by
  obtain ⟨h, _⟩ | ⟨h, hp, _⟩ | ⟨h, hp, _⟩ := s.settle_cases
  · exact .inl ⟨h, State.endCycle_of_halted h⟩
  · exact .inr (.inl ⟨h, hp, State.endCycle_of_waiting h hp⟩)
  · exact .inr (.inr ⟨h, hp, State.endCycle_of_ready h hp⟩)

/-- The events of a cycle that goes on through TIMER_TICK to READY (R107, R212). -/
theorem State.endCycle_events_of_ready {s : State} (h : s.halted = false) (hp : s.phase = .ready) :
    s.endCycle.events = s.events ++
      ((if beepsWithin s.st (s.pendingTicks + s.input.ticks) then [.beep] else []) ++
        (if s.dirty then [.frameReady s.fb] else [])) := by
  rw [State.endCycle_of_ready h hp]
  simp only [State.frameReady, State.timerTick, State.countTicks, State.consumeInput]
  by_cases hd : s.dirty = true <;>
    by_cases hb : beepsWithin s.st (s.pendingTicks + s.input.ticks) = true <;> simp [hd, hb]

/-! ## FETCH -/

/-- FETCH succeeds exactly when both bytes are in memory (R101). -/
theorem State.fetch_eq_some {s : State} {w : Word} :
    s.fetch = some w ↔
      s.pc.toNat ≤ 4094 ∧ wordOfBytes (s.byte s.pc.toNat) (s.byte (s.pc.toNat + 1)) = w := by
  simp only [State.fetch]
  cases h : outOfRange s.pc.toNat 2 with
  | true =>
    have := (outOfRange_iff.1 h).2
    simp only [Config.memorySize] at this
    simp; omega
  | false =>
    have := outOfRange_false.1 h
    simp only [Config.memorySize] at this
    simp; omega

/-- FETCH fails exactly when `pc` > 4094 (R101). -/
theorem State.fetch_eq_none {s : State} : s.fetch = none ↔ 4094 < s.pc.toNat := by
  have := @State.fetch_eq_some s
  cases h : s.fetch with
  | none =>
    simp only [true_iff]
    by_contra hn
    exact absurd ((this.2 ⟨by omega, rfl⟩).symm.trans h) (by simp)
  | some w =>
    have := (this.1 h).1
    simp; omega

/-- Storing an instruction where the step fetches keeps memory canonical. -/
theorem State.wf_withFetchWord (s : State) (nbits w : Nat) (h : Memory.wf s.mem = true) :
    Memory.wf (s.withFetchWord nbits w).mem = true := by
  simp only [State.withFetchWord]
  split
  · exact h
  · rename_i ho
    have := outOfRange_false.1 (Bool.eq_false_iff.2 ho)
    exact Memory.wf_writeBytes h _ _ (by simp only [List.length_cons, List.length_nil]; omega)

/-! ## A step -/

/-- No step is taken from HALTED (R108). -/
theorem step_halted {s : State} (h : s.halted = true) : step s = .fault .halted := by
  simp [step, driverStep, h]

/-- A step in WAIT_KEY (R105). -/
theorem step_waiting {s : State} (h : s.halted = false) (hp : s.phase = .waitKey) :
    step s = .next s.wakeOnKey.endCycle := by simp [step, driverStep, h, hp]

/-- A step from READY is a cycle (R100). -/
theorem step_ready {s : State} (h : s.halted = false) (hp : s.phase = .ready) : step s = cycle s := by
  simp [step, driverStep, h, hp]

/-- A next state of an instruction, ended, is what an ended instruction answers. -/
theorem endResult_eq_next {r : Result} {t : State} (h : endResult r = .next t) :
    ∃ u, r = .next u ∧ t = u.endCycle := by
  cases r with
  | next u => exact ⟨u, rfl, by simpa [endResult] using h.symm⟩
  | fault f => simp [endResult] at h
  | refused f => simp [endResult] at h

/-- Everything a step that answers a next state can have done. -/
theorem step_cases {s t : State} (h : step s = .next t) :
    s.halted = false ∧
    ((s.phase = .waitKey ∧ t = s.wakeOnKey.endCycle) ∨
     (s.phase = .ready ∧ s.fetch = none ∧ t = s.raiseFetch.endCycle) ∨
     (s.phase = .ready ∧ ∃ w, s.fetch = some w ∧ decode w = none ∧ t = (s.reportUnknown w).endCycle) ∨
     (s.phase = .ready ∧ ∃ w i u, s.fetch = some w ∧ decode w = some i ∧ exec i s = .next u ∧ t = u.endCycle)) := by
  cases hh : s.halted with
  | true => simp [step_halted hh] at h
  | false =>
    refine ⟨rfl, ?_⟩
    cases hp : s.phase with
    | waitKey =>
      rw [step_waiting hh hp] at h
      exact .inl ⟨rfl, by simpa using h.symm⟩
    | ready =>
      rw [step_ready hh hp, cycle] at h
      cases hf : s.fetch with
      | none =>
        rw [hf] at h
        exact .inr (.inl ⟨rfl, rfl, by simpa using h.symm⟩)
      | some w =>
        simp only [hf] at h
        cases hd : decode w with
        | none =>
          simp only [hd] at h
          exact .inr (.inr (.inl ⟨rfl, w, rfl, hd, by simpa using h.symm⟩))
        | some i =>
          simp only [hd] at h
          obtain ⟨u, hu, rfl⟩ := endResult_eq_next h
          exact .inr (.inr (.inr ⟨rfl, w, i, u, rfl, hd, hu, rfl⟩))

end Sys2Proof.Machine
end

