-- ==== Sys2Proof/Laws/Decode.lean ====
section
/-! SUPPORT. The fields of a packed word, the masks of a packed word, and a word rebuilt from its fields. -/

namespace Sys2Proof

/-! ## Fields of a packed word -/

@[simp] theorem fieldG_packXY (g x y n : Nibble) : fieldG (packXY g x y n) = g := by
  ext i hi; simp [fieldG, packXY]; grind
@[simp] theorem fieldX_packXY (g x y n : Nibble) : fieldX (packXY g x y n) = x := by
  ext i hi; simp [fieldX, packXY]; grind
@[simp] theorem fieldY_packXY (g x y n : Nibble) : fieldY (packXY g x y n) = y := by
  ext i hi; simp [fieldY, packXY]; grind
@[simp] theorem fieldN_packXY (g x y n : Nibble) : fieldN (packXY g x y n) = n := by
  ext i hi; simp [fieldN, packXY]; grind

@[simp] theorem fieldG_packZ (g : Nibble) (ign : BitVec 8) (n : Nibble) : fieldG (packZ g ign n) = g := by
  ext i hi; simp [fieldG, packZ]; grind
@[simp] theorem fieldIgn_packZ (g : Nibble) (ign : BitVec 8) (n : Nibble) : fieldIgn (packZ g ign n) = ign := by
  ext i hi; simp [fieldIgn, packZ]; grind
@[simp] theorem fieldN_packZ (g : Nibble) (ign : BitVec 8) (n : Nibble) : fieldN (packZ g ign n) = n := by
  ext i hi; simp [fieldN, packZ]; grind

@[simp] theorem fieldG_packXK (g x : Nibble) (nn : Byte) : fieldG (packXK g x nn) = g := by
  ext i hi; simp [fieldG, packXK]; grind
@[simp] theorem fieldX_packXK (g x : Nibble) (nn : Byte) : fieldX (packXK g x nn) = x := by
  ext i hi; simp [fieldX, packXK]; grind
@[simp] theorem fieldNN_packXK (g x : Nibble) (nn : Byte) : fieldNN (packXK g x nn) = nn := by
  ext i hi; simp [fieldNN, packXK]; grind

@[simp] theorem fieldG_packA (g : Nibble) (nnn : Addr12) : fieldG (packA g nnn) = g := by
  ext i hi; simp [fieldG, packA]; grind
@[simp] theorem fieldNNN_packA (g : Nibble) (nnn : Addr12) : fieldNNN (packA g nnn) = nnn := by
  ext i hi; simp [fieldNNN, packA]; grind

/-! ## A word rebuilt from its fields -/

theorem packXY_fields (w : Word) : packXY (fieldG w) (fieldX w) (fieldY w) (fieldN w) = w := by
  ext i hi; simp [fieldG, fieldX, fieldY, fieldN, packXY]; grind
theorem packZ_fields (w : Word) : packZ (fieldG w) (fieldIgn w) (fieldN w) = w := by
  ext i hi; simp [fieldG, fieldIgn, fieldN, packZ]; grind
theorem packXK_fields (w : Word) : packXK (fieldG w) (fieldX w) (fieldNN w) = w := by
  ext i hi; simp [fieldG, fieldX, fieldNN, packXK]; grind
theorem packA_fields (w : Word) : packA (fieldG w) (fieldNNN w) = w := by
  ext i hi; simp [fieldG, fieldNNN, packA]; grind

/-- A word is its two bytes (R52). -/
@[simp] theorem wordOfBytes_highByte_lowByte (w : Word) : wordOfBytes (highByte w) (lowByte w) = w := by
  ext i hi; simp [wordOfBytes, highByte, lowByte]; grind
@[simp] theorem highByte_wordOfBytes (hi lo : Byte) : highByte (wordOfBytes hi lo) = hi := by
  ext i hi; simp [wordOfBytes, highByte]; grind
@[simp] theorem lowByte_wordOfBytes (hi lo : Byte) : lowByte (wordOfBytes hi lo) = lo := by
  ext i hi; simp [wordOfBytes, lowByte]; grind

/-- The word of two bytes as a number: 256 times the first, plus the second (R52). -/
theorem wordOfBytes_eq_ofNat (hi lo : Byte) : wordOfBytes hi lo = BitVec.ofNat 16 (hi.toNat * 256 + lo.toNat) := by
  apply BitVec.eq_of_toNat_eq
  rw [wordOfBytes, BitVec.toNat_append, ← Nat.shiftLeft_add_eq_or_of_lt lo.isLt, Nat.shiftLeft_eq]
  have := hi.isLt
  have := lo.isLt
  simp
  omega

/-! ## Masks of a packed word -/

theorem nibble_and_ones (n : Nibble) : n &&& 0xF#4 = n := by revert n; decide
theorem byte_and_ones (b : Byte) : b &&& 0xFF#8 = b := BitVec.and_allOnes

theorem mask_group_packXY (g x y n : Nibble) : packXY g x y n &&& 0xF000#16 = packXY g 0#4 0#4 0#4 := by
  show (g ++ x ++ y ++ n : BitVec (4 + 4 + 4 + 4)) &&& (0xF#4 ++ 0#4 ++ 0#4 ++ 0#4) = g ++ 0#4 ++ 0#4 ++ 0#4
  simp only [BitVec.and_append, nibble_and_ones, BitVec.and_zero]
theorem mask_selector_packXY (g x y n : Nibble) : packXY g x y n &&& 0xF00F#16 = packXY g 0#4 0#4 n := by
  show (g ++ x ++ y ++ n : BitVec (4 + 4 + 4 + 4)) &&& (0xF#4 ++ 0#4 ++ 0#4 ++ 0xF#4) = g ++ 0#4 ++ 0#4 ++ n
  simp only [BitVec.and_append, nibble_and_ones, BitVec.and_zero]
theorem mask_selector_packZ (g : Nibble) (ign : BitVec 8) (n : Nibble) :
    packZ g ign n &&& 0xF00F#16 = packZ g 0#8 n := by
  show (g ++ ign ++ n : BitVec (4 + 8 + 4)) &&& (0xF#4 ++ 0#8 ++ 0xF#4) = g ++ 0#8 ++ n
  simp only [BitVec.and_append, nibble_and_ones, BitVec.and_zero]
theorem mask_group_packXK (g x : Nibble) (nn : Byte) : packXK g x nn &&& 0xF000#16 = packXK g 0#4 0#8 := by
  show (g ++ x ++ nn : BitVec (4 + 4 + 8)) &&& (0xF#4 ++ 0#4 ++ 0#8) = g ++ 0#4 ++ 0#8
  simp only [BitVec.and_append, nibble_and_ones, BitVec.and_zero]
theorem mask_selector_packXK (g x : Nibble) (nn : Byte) : packXK g x nn &&& 0xF0FF#16 = packXK g 0#4 nn := by
  show (g ++ x ++ nn : BitVec (4 + 4 + 8)) &&& (0xF#4 ++ 0#4 ++ 0xFF#8) = g ++ 0#4 ++ nn
  simp only [BitVec.and_append, nibble_and_ones, byte_and_ones, BitVec.and_zero]
theorem mask_group_packA (g : Nibble) (nnn : Addr12) : packA g nnn &&& 0xF000#16 = packA g 0#12 := by
  show (g ++ nnn : BitVec (4 + 12)) &&& (0xF#4 ++ 0#12) = g ++ 0#12
  simp only [BitVec.and_append, nibble_and_ones, BitVec.and_zero]

end Sys2Proof
end

