-- ==== Sys2Proof/Laws/Display.lean ====
section
/-! SUPPORT. What the sprite blitter does to each cell and when it collides (R171 to R173). -/

namespace Sys2Proof.Machine

/-- `FB[x + 64*y]` is column `x` of row `y` (R27). -/
theorem State.cell_eq_cellAt (s : State) {x : Nat} (y : Nat) (hx : x < 64) : s.cell (x + y * 64) = cellAt s.fb x y := by
  simp only [State.cell, Config.fbWidth]
  congr 1 <;> omega

/-- Framebuffers that agree on each of the 2048 cells are the same. -/
theorem fb_ext {f g : Vector PixelRow Config.fbHeight}
    (h : ∀ x y, x < 64 → y < 32 → cellAt f x y = cellAt g x y) : f = g := by
  apply Vector.ext
  intro y hy
  ext x hx
  simpa [cellAt, Vector.getD, hy, hx, BitVec.getLsbD_eq_getElem hx] using h x y hx hy

/-- One pixel inverts its own cell and leaves every other alone. -/
theorem Canvas.cellAt_plot (p : Canvas) {x y X Y : Nat} (hx : x < Config.fbWidth) (hy : y < Config.fbHeight)
    (hX : X < Config.fbWidth) (hY : Y < Config.fbHeight) :
    cellAt (p.plot x y).fb X Y = (cellAt p.fb X Y ^^ (decide (X = x) && decide (Y = y))) := by
  simp only [Config.fbWidth, Config.fbHeight] at hx hy hX hY
  by_cases h : Y = y
  · subst h
    by_cases hXx : X = x
    · subst hXx
      simp [cellAt, Canvas.plot, hX, hY, Vector.getD]
    · have : ((1#64 <<< x).getLsbD X) = false := by
        simp only [BitVec.getLsbD_shiftLeft]
        by_cases hlt : X < x
        · simp [hlt]
        · have : X - x ≠ 0 := by omega
          simp [this]
      simp [cellAt, Canvas.plot, hY, Vector.getD, hXx, this]
  · simp [cellAt, Canvas.plot, Vector.getD, hY, h, Ne.symm h]

/-- Sprite column `c` falls on column `X` exactly when `c` is the distance of `X` from the origin, modulo 64. -/
theorem column_iff {ox X c : Nat} (hox : ox < Config.fbWidth) (hX : X < Config.fbWidth) (hc : c < Config.fbWidth) :
    X = (ox + c) % Config.fbWidth ↔ (X + Config.fbWidth - ox) % Config.fbWidth = c := by
  simp only [Config.fbWidth] at *; omega

/-- The same for rows, modulo 32. -/
theorem row_iff {oy Y r : Nat} (hoy : oy < Config.fbHeight) (hY : Y < Config.fbHeight) (hr : r < Config.fbHeight) :
    Y = (oy + r) % Config.fbHeight ↔ (Y + Config.fbHeight - oy) % Config.fbHeight = r := by
  simp only [Config.fbHeight] at *; omega

/-- What the columns `c` to `c + k - 1` of one sprite row do to a cell. -/
theorem Canvas.cellAt_blitRow (b : Byte) {ox y X Y : Nat} (hox : ox < Config.fbWidth) (hy : y < Config.fbHeight)
    (hX : X < Config.fbWidth) (hY : Y < Config.fbHeight) (k c : Nat) (p : Canvas) (hk : c + k ≤ 8) :
    cellAt (Canvas.blitRow b ox y k c p).fb X Y =
      (cellAt p.fb X Y ^^
        (decide (Y = y) && decide (c ≤ (X + Config.fbWidth - ox) % Config.fbWidth) &&
          decide ((X + Config.fbWidth - ox) % Config.fbWidth < c + k) &&
          b.getLsbD (7 - (X + Config.fbWidth - ox) % Config.fbWidth))) := by
  induction k generalizing c p with
  | zero =>
    have : ¬ (c ≤ (X + Config.fbWidth - ox) % Config.fbWidth ∧ (X + Config.fbWidth - ox) % Config.fbWidth < c) := by
      omega
    simp only [Canvas.blitRow, Nat.add_zero]
    by_cases h1 : c ≤ (X + Config.fbWidth - ox) % Config.fbWidth
    · simp [Nat.not_lt.2 h1]
    · simp [h1]
  | succ k ih =>
    rw [Canvas.blitRow, ih _ _ (by omega)]
    have hcol := column_iff (c := c) hox hX (by simp only [Config.fbWidth]; omega)
    have hm : (ox + c) % Config.fbWidth < Config.fbWidth := Nat.mod_lt _ (by decide)
    generalize hd : (X + Config.fbWidth - ox) % Config.fbWidth = d at *
    by_cases hdc : d = c
    · subst hdc
      cases hb : b.getLsbD (7 - d) with
      | true =>
        have hp := Canvas.cellAt_plot p hm hy hX hY
        have e := hcol.2 rfl
        rw [← e] at hp
        simp [← e, hp]
      | false => simp
    · have hx : X ≠ (ox + c) % Config.fbWidth := fun e => hdc (hcol.1 e)
      have hle : (c + 1 ≤ d) = (c ≤ d) := by apply propext; omega
      have hlt : (d < c + 1 + k) = (d < c + (k + 1)) := by apply propext; omega
      simp only [hle, hlt]
      congr 1
      split
      · simp [Canvas.cellAt_plot p hm hy hX hY, hx]
      · rfl

/-- When the columns `c` to `c + k - 1` of one sprite row collide: a 1 bit falls on a cell that is 1. -/
theorem Canvas.collision_blitRow (b : Byte) (ox : Nat) {y : Nat} (hy : y < Config.fbHeight)
    (k c : Nat) (p : Canvas) (hk : c + k ≤ 8) :
    (Canvas.blitRow b ox y k c p).collision = true ↔
      p.collision = true ∨ ∃ j, c ≤ j ∧ j < c + k ∧ b.getLsbD (7 - j) = true ∧
        cellAt p.fb ((ox + j) % Config.fbWidth) y = true := by
  induction k generalizing c p with
  | zero =>
    simp only [Canvas.blitRow, Nat.add_zero]
    exact ⟨.inl, fun h => h.elim id fun ⟨j, h1, h2, _⟩ => absurd h2 (by omega)⟩
  | succ k ih =>
    rw [Canvas.blitRow, ih _ _ (by omega)]
    have hm : ∀ j, (ox + j) % Config.fbWidth < Config.fbWidth := fun j => Nat.mod_lt _ (by decide)
    have hother : ∀ j, c + 1 ≤ j → j < c + 1 + k →
        cellAt (p.plot ((ox + c) % Config.fbWidth) y).fb ((ox + j) % Config.fbWidth) y =
          cellAt p.fb ((ox + j) % Config.fbWidth) y := by
      intro j h1 h2
      have hne : (ox + j) % Config.fbWidth ≠ (ox + c) % Config.fbWidth := by
        simp only [Config.fbWidth] at *; omega
      simp [Canvas.cellAt_plot p (hm c) hy (hm j) hy, hne]
    constructor
    · rintro (h | ⟨j, h1, h2, h3, h4⟩)
      · split at h
        · rename_i hb
          simp only [Canvas.plot, Bool.or_eq_true] at h
          rcases h with h | h
          · exact .inl h
          · exact .inr ⟨c, le_rfl, by omega, hb, h⟩
        · exact .inl h
      · refine .inr ⟨j, by omega, by omega, h3, ?_⟩
        split at h4
        · rwa [hother j h1 h2] at h4
        · exact h4
    · rintro (h | ⟨j, h1, h2, h3, h4⟩)
      · left; split
        · simp [Canvas.plot, h]
        · exact h
      · by_cases hj : j = c
        · subst hj
          left
          simp [h3, Canvas.plot, h4]
        · refine .inr ⟨j, by omega, by omega, h3, ?_⟩
          split
          · rw [hother j (by omega) (by omega)]; exact h4
          · exact h4

/-- What the sprite rows `bs`, the first of them sprite row `r`, do to a cell: it is inverted where a 1 bit falls. -/
theorem Canvas.cellAt_blit {ox oy X Y : Nat} (hox : ox < Config.fbWidth) (hoy : oy < Config.fbHeight)
    (hX : X < Config.fbWidth) (hY : Y < Config.fbHeight) (bs : List Byte) (r : Nat) (p : Canvas)
    (hr : r + bs.length ≤ Config.fbHeight) :
    cellAt (Canvas.blit ox oy bs r p).fb X Y =
      (cellAt p.fb X Y ^^
        (decide (r ≤ (Y + Config.fbHeight - oy) % Config.fbHeight) &&
          decide ((X + Config.fbWidth - ox) % Config.fbWidth < 8) &&
          (bs.getD ((Y + Config.fbHeight - oy) % Config.fbHeight - r) 0#8).getLsbD
            (7 - (X + Config.fbWidth - ox) % Config.fbWidth))) := by
  induction bs generalizing r p with
  | nil => simp [Canvas.blit]
  | cons b bs ih =>
    simp only [List.length_cons] at hr
    have hm : (oy + r) % Config.fbHeight < Config.fbHeight := Nat.mod_lt _ (by decide)
    rw [Canvas.blit, ih _ _ (by omega), Canvas.cellAt_blitRow b hox hm hX hY 8 0 p (by omega)]
    have hrow := row_iff (r := r) hoy hY (by omega)
    simp only [hrow]
    generalize (X + Config.fbWidth - ox) % Config.fbWidth = col
    generalize (Y + Config.fbHeight - oy) % Config.fbHeight = row
    by_cases h : row = r
    · subst h; simp
    · by_cases hle : r ≤ row
      · obtain ⟨d, rfl⟩ : ∃ d, row = r + (d + 1) := ⟨row - r - 1, by omega⟩
        have h1 : r + (d + 1) - r = d + 1 := by omega
        have h2 : r + (d + 1) - (r + 1) = d := by omega
        have h3 : r + 1 ≤ r + (d + 1) := by omega
        simp [h1, h2, h3]
      · have h3 : ¬ r + 1 ≤ row := by omega
        simp [h, hle, h3]

/-- When the sprite rows collide: a 1 bit falls on a cell that is 1. -/
theorem Canvas.collision_blit {ox : Nat} (hox : ox < Config.fbWidth) (oy : Nat)
    (bs : List Byte) (r : Nat) (p : Canvas) (hr : r + bs.length ≤ Config.fbHeight) :
    (Canvas.blit ox oy bs r p).collision = true ↔
      p.collision = true ∨ ∃ i j, i < bs.length ∧ j < 8 ∧ (bs.getD i 0#8).getLsbD (7 - j) = true ∧
        cellAt p.fb ((ox + j) % Config.fbWidth) ((oy + (r + i)) % Config.fbHeight) = true := by
  induction bs generalizing r p with
  | nil => simp [Canvas.blit]
  | cons b bs ih =>
    simp only [List.length_cons] at hr
    have hm : ∀ r, (oy + r) % Config.fbHeight < Config.fbHeight := fun r => Nat.mod_lt _ (by decide)
    have hmx : ∀ j, (ox + j) % Config.fbWidth < Config.fbWidth := fun r => Nat.mod_lt _ (by decide)
    rw [Canvas.blit, ih _ _ (by omega), Canvas.collision_blitRow b ox (hm r) 8 0 p (by omega)]
    have hother : ∀ i j, i < bs.length → 
        cellAt (Canvas.blitRow b ox ((oy + r) % Config.fbHeight) 8 0 p).fb ((ox + j) % Config.fbWidth)
          ((oy + (r + 1 + i)) % Config.fbHeight) =
        cellAt p.fb ((ox + j) % Config.fbWidth) ((oy + (r + 1 + i)) % Config.fbHeight) := by
      intro i j hi
      rw [Canvas.cellAt_blitRow b hox (hm r) (hmx j) (hm _) 8 0 p (by omega)]
      have hne : (oy + (r + 1 + i)) % Config.fbHeight ≠ (oy + r) % Config.fbHeight := by
        simp only [Config.fbHeight] at *; omega
      simp [hne]
    constructor
    · rintro ((h | ⟨j, h1, h2, h3, h4⟩) | ⟨i, j, hi, hj, hb, hc⟩)
      · exact .inl h
      · exact .inr ⟨0, j, by simp, by omega, by simpa using h3, by simpa using h4⟩
      · rw [hother i j hi] at hc
        exact .inr ⟨i + 1, j, by simpa using hi, hj, by simpa using hb,
          by rwa [show r + (i + 1) = r + 1 + i by omega]⟩
    · rintro (h | ⟨i, j, hi, hj, hb, hc⟩)
      · exact .inl (.inl h)
      · cases i with
        | zero => exact .inl (.inr ⟨j, by omega, by omega, by simpa using hb, by simpa using hc⟩)
        | succ i =>
          simp only [List.length_cons] at hi
          refine .inr ⟨i, j, by omega, hj, by simpa using hb, ?_⟩
          rw [hother i j (by omega), show r + 1 + i = r + (i + 1) by omega]
          exact hc

end Sys2Proof.Machine
end

