-- ==== Sys2Proof/Laws/Loader.lean ====
section
/-! SUPPORT. What the loader's writes do (R65, R242), and that reset memory is canonical. -/

namespace Sys2Proof.Machine

/-- Reset memory is in the canonical form. -/
theorem reset_memory_wf : Memory.wf State.reset.mem = true := rfl

/-- A load inside memory writes the byte. -/
theorem State.load_inside (s : State) {a : Nat} (b : Byte) (h : a < 4096) : s.load a b = s.setMem (Memory.set s.mem a b) := by
  simp [State.load, Config.memorySize, h]

/-- A load keeps the canonical form, whatever the address. -/
theorem State.wf_load (s : State) (a : Nat) (b : Byte) (h : Memory.wf s.mem = true) :
    Memory.wf (s.load a b).mem = true := by
  unfold State.load
  split
  · exact Memory.wf_set h (by assumption) b
  · exact h

/-- A run of loads inside memory is a run of writes. -/
theorem State.loadBytes_inside (xs : List Byte) (s : State) (a : Nat) (h : a + xs.length ≤ 4096) :
    s.loadBytes a xs = s.setMem (Memory.writeBytes s.mem a xs) := by
  induction xs generalizing s a with
  | nil => rfl
  | cons x xs ih =>
    simp only [List.length_cons] at h
    rw [State.loadBytes, ih _ _ (by omega), State.load_inside _ _ (by omega)]
    rfl

end Sys2Proof.Machine
end

