-- ==== Sys2Proof/Laws/PerInstr.lean ====
section
/-! SUPPORT. The family TableRow: the word of an instruction matches the row of the opcode table the instruction stands
for (R74 to R79), and that row is one of the table's 34. One lemma per constructor. -/

namespace Sys2Proof.Laws.TableRow

/-- The word of the instruction matches its row, and its row is in the table. -/
def Statement (i : Instr) : Prop :=
  encode i &&& i.row.mask = i.row.pattern ∧ i.row ∈ opcodeTable

theorem cls (ign : BitVec 8) : Statement (.cls ign) :=
  ⟨(mask_selector_packZ _ _ _).trans rfl, List.mem_of_getElem? (i := 0) rfl⟩

theorem ret (ign : BitVec 8) : Statement (.ret ign) :=
  ⟨(mask_selector_packZ _ _ _).trans rfl, List.mem_of_getElem? (i := 1) rfl⟩

theorem jump (nnn : Addr12) : Statement (.jump nnn) :=
  ⟨(mask_group_packA _ _).trans rfl, List.mem_of_getElem? (i := 2) rfl⟩

theorem call (nnn : Addr12) : Statement (.call nnn) :=
  ⟨(mask_group_packA _ _).trans rfl, List.mem_of_getElem? (i := 3) rfl⟩

theorem skipEqConst (x : Nibble) (nn : Byte) : Statement (.skipEqConst x nn) :=
  ⟨(mask_group_packXK _ _ _).trans rfl, List.mem_of_getElem? (i := 4) rfl⟩

theorem skipNeqConst (x : Nibble) (nn : Byte) : Statement (.skipNeqConst x nn) :=
  ⟨(mask_group_packXK _ _ _).trans rfl, List.mem_of_getElem? (i := 5) rfl⟩

theorem skipEqReg (x y : Nibble) (ign : Nibble) : Statement (.skipEqReg x y ign) :=
  ⟨(mask_group_packXY _ _ _ _).trans rfl, List.mem_of_getElem? (i := 6) rfl⟩

theorem setConst (x : Nibble) (nn : Byte) : Statement (.setConst x nn) :=
  ⟨(mask_group_packXK _ _ _).trans rfl, List.mem_of_getElem? (i := 7) rfl⟩

theorem addConst (x : Nibble) (nn : Byte) : Statement (.addConst x nn) :=
  ⟨(mask_group_packXK _ _ _).trans rfl, List.mem_of_getElem? (i := 8) rfl⟩

theorem setReg (x y : Nibble) : Statement (.setReg x y) :=
  ⟨(mask_selector_packXY _ _ _ _).trans rfl, List.mem_of_getElem? (i := 9) rfl⟩

theorem orReg (x y : Nibble) : Statement (.orReg x y) :=
  ⟨(mask_selector_packXY _ _ _ _).trans rfl, List.mem_of_getElem? (i := 10) rfl⟩

theorem andReg (x y : Nibble) : Statement (.andReg x y) :=
  ⟨(mask_selector_packXY _ _ _ _).trans rfl, List.mem_of_getElem? (i := 11) rfl⟩

theorem xorReg (x y : Nibble) : Statement (.xorReg x y) :=
  ⟨(mask_selector_packXY _ _ _ _).trans rfl, List.mem_of_getElem? (i := 12) rfl⟩

theorem addReg (x y : Nibble) : Statement (.addReg x y) :=
  ⟨(mask_selector_packXY _ _ _ _).trans rfl, List.mem_of_getElem? (i := 13) rfl⟩

theorem sub (x y : Nibble) : Statement (.sub x y) :=
  ⟨(mask_selector_packXY _ _ _ _).trans rfl, List.mem_of_getElem? (i := 14) rfl⟩

theorem shiftRight (x : Nibble) (ign : Nibble) : Statement (.shiftRight x ign) :=
  ⟨(mask_selector_packXY _ _ _ _).trans rfl, List.mem_of_getElem? (i := 15) rfl⟩

theorem subn (x y : Nibble) : Statement (.subn x y) :=
  ⟨(mask_selector_packXY _ _ _ _).trans rfl, List.mem_of_getElem? (i := 16) rfl⟩

theorem shiftLeft (x : Nibble) (ign : Nibble) : Statement (.shiftLeft x ign) :=
  ⟨(mask_selector_packXY _ _ _ _).trans rfl, List.mem_of_getElem? (i := 17) rfl⟩

theorem skipNeqReg (x y : Nibble) (ign : Nibble) : Statement (.skipNeqReg x y ign) :=
  ⟨(mask_group_packXY _ _ _ _).trans rfl, List.mem_of_getElem? (i := 18) rfl⟩

theorem setIndex (nnn : Addr12) : Statement (.setIndex nnn) :=
  ⟨(mask_group_packA _ _).trans rfl, List.mem_of_getElem? (i := 19) rfl⟩

theorem jumpOffset (nnn : Addr12) : Statement (.jumpOffset nnn) :=
  ⟨(mask_group_packA _ _).trans rfl, List.mem_of_getElem? (i := 20) rfl⟩

theorem rand (x : Nibble) (nn : Byte) : Statement (.rand x nn) :=
  ⟨(mask_group_packXK _ _ _).trans rfl, List.mem_of_getElem? (i := 21) rfl⟩

theorem draw (x y n : Nibble) : Statement (.draw x y n) :=
  ⟨(mask_group_packXY _ _ _ _).trans rfl, List.mem_of_getElem? (i := 22) rfl⟩

theorem keyPressed (x : Nibble) : Statement (.keyPressed x) :=
  ⟨(mask_selector_packXK _ _ _).trans rfl, List.mem_of_getElem? (i := 23) rfl⟩

theorem keyNotPressed (x : Nibble) : Statement (.keyNotPressed x) :=
  ⟨(mask_selector_packXK _ _ _).trans rfl, List.mem_of_getElem? (i := 24) rfl⟩

theorem getTimer (x : Nibble) : Statement (.getTimer x) :=
  ⟨(mask_selector_packXK _ _ _).trans rfl, List.mem_of_getElem? (i := 25) rfl⟩

theorem waitForKey (x : Nibble) : Statement (.waitForKey x) :=
  ⟨(mask_selector_packXK _ _ _).trans rfl, List.mem_of_getElem? (i := 26) rfl⟩

theorem setDelay (x : Nibble) : Statement (.setDelay x) :=
  ⟨(mask_selector_packXK _ _ _).trans rfl, List.mem_of_getElem? (i := 27) rfl⟩

theorem setSound (x : Nibble) : Statement (.setSound x) :=
  ⟨(mask_selector_packXK _ _ _).trans rfl, List.mem_of_getElem? (i := 28) rfl⟩

theorem addToIndex (x : Nibble) : Statement (.addToIndex x) :=
  ⟨(mask_selector_packXK _ _ _).trans rfl, List.mem_of_getElem? (i := 29) rfl⟩

theorem fontChar (x : Nibble) : Statement (.fontChar x) :=
  ⟨(mask_selector_packXK _ _ _).trans rfl, List.mem_of_getElem? (i := 30) rfl⟩

theorem bcd (x : Nibble) : Statement (.bcd x) :=
  ⟨(mask_selector_packXK _ _ _).trans rfl, List.mem_of_getElem? (i := 31) rfl⟩

theorem storeRegs (x : Nibble) : Statement (.storeRegs x) :=
  ⟨(mask_selector_packXK _ _ _).trans rfl, List.mem_of_getElem? (i := 32) rfl⟩

theorem loadRegs (x : Nibble) : Statement (.loadRegs x) :=
  ⟨(mask_selector_packXK _ _ _).trans rfl, List.mem_of_getElem? (i := 33) rfl⟩

end Sys2Proof.Laws.TableRow
end

