-- ==== Sys2Proof/Tests/Slice0.lean ====
section
/-! SUPPORT. Small tests: ill-formed terms that the checks refuse, decoding of words written out from the spec's
encodings, single steps against the vectors of spec/95_test_vectors.md (V and S numbers), and for each statement of
Certificates/Slice0/Obligations.lean that has hypotheses a concrete case that meets them. -/

open Sys2Proof Sys2Proof.Machine

namespace Sys2Proof.Tests

/-! ## Helpers -/

/-- Inputs in which nothing happens outside. -/
def quiet : StepInput := { ticks := 0, keys := 0#16, rand := 0#8, keyDown := none }

/-- The reset state with a word at 0x200 and the inputs of the next step. -/
def start (w : Word) (r : StepInput := quiet) : State :=
  { State.reset.withFetchWord 16 w.toNat with inputs := [r] }

/-- One thing read off the next state of a result. -/
def after {α : Type} (r : Result) (f : State → α) : Option α :=
  match r with
  | .next t => some (f t)
  | .fault _ => none
  | .refused _ => none

/-- The status record of a halted core (R32). -/
def record (s : State) : Bool × BitVec 3 × Word × Word × Word := (s.halted, s.errKind, s.errPc, s.errOp, s.errAddr)

/-- A state with bytes at an address. -/
def put (s : State) (a : Nat) (bs : List Byte) : State := s.setMem (Memory.writeBytes s.mem a bs)

/-! ## Well-formedness: each check refuses an ill-formed term -/

theorem test_wf_cls : (Instr.cls 0x12#8).wellFormed = false ∧ (Instr.cls 0x0E#8).wellFormed = true := by decide
theorem test_wf_ret : (Instr.ret 0xFF#8).wellFormed = false ∧ (Instr.ret 0x0E#8).wellFormed = true := by decide
theorem test_wf_skipEqReg : (Instr.skipEqReg 1#4 2#4 1#4).wellFormed = false := by decide
theorem test_wf_skipNeqReg : (Instr.skipNeqReg 1#4 2#4 15#4).wellFormed = false := by decide
theorem test_wf_shiftRight : (Instr.shiftRight 0#4 1#4).wellFormed = false := by decide
theorem test_wf_shiftLeft : (Instr.shiftLeft 0#4 8#4).wellFormed = false := by decide
theorem test_wf_font : fontWellFormed [0xF0#8] = false ∧ fontWellFormed Config.defaultFont = true := by decide
theorem test_wf_rom : romWellFormed (List.replicate 3585 0#8) = false ∧ romWellFormed [] = true := by
  constructor
  · rw [romWellFormed, List.length_replicate]; decide
  · rfl

/-! ## Decoding: for every constructor a word written out from its encoding -/

/-- R75: `0··0`, `0··E`, bits 11:4 free (V7, V71). -/
theorem test_decode_group0 :
    decode 0b0000_00001110_0000#16 = some (.cls 0x0E#8) ∧ decode 0x0120#16 = some (.cls 0x12#8) ∧
    decode 0b0000_00001110_1110#16 = some (.ret 0x0E#8) ∧ decode 0x0FFE#16 = some (.ret 0xFF#8) := by decide

/-- R74, R71: `1NNN`, `2NNN`, `ANNN`, `BNNN`. -/
theorem test_decode_addresses :
    decode 0b0001_101010111100#16 = some (.jump 0xABC#12) ∧ decode 0b0010_001000000100#16 = some (.call 0x204#12) ∧
    decode 0b1010_111111111111#16 = some (.setIndex 0xFFF#12) ∧
    decode 0b1011_001100000000#16 = some (.jumpOffset 0x300#12) := by decide

/-- R74, R71: `3XNN`, `4XNN`, `6XNN`, `7XNN`, `CXNN`. -/
theorem test_decode_constants :
    decode 0b0011_0001_10000000#16 = some (.skipEqConst 1#4 0x80#8) ∧
    decode 0b0100_1111_00000001#16 = some (.skipNeqConst 15#4 0x01#8) ∧
    decode 0b0110_0000_00000101#16 = some (.setConst 0#4 0x05#8) ∧
    decode 0b0111_0010_11111111#16 = some (.addConst 2#4 0xFF#8) ∧
    decode 0b1100_0011_00001111#16 = some (.rand 3#4 0x0F#8) := by decide

/-- R79: the low nibble of groups 5 and 9 is free (V13, V15). -/
theorem test_decode_register_skips :
    decode 0b0101_0001_0010_0001#16 = some (.skipEqReg 1#4 2#4 1#4) ∧
    decode 0b1001_0001_0010_1111#16 = some (.skipNeqReg 1#4 2#4 15#4) := by decide

/-- R76, the first half of group 8. -/
theorem test_decode_group8_low :
    decode 0b1000_0001_0010_0000#16 = some (.setReg 1#4 2#4) ∧ decode 0b1000_0001_0010_0001#16 = some (.orReg 1#4 2#4) ∧
    decode 0b1000_0001_0010_0010#16 = some (.andReg 1#4 2#4) ∧ decode 0b1000_0001_0010_0011#16 = some (.xorReg 1#4 2#4) ∧
    decode 0b1000_0000_0001_0100#16 = some (.addReg 0#4 1#4) := by decide

/-- R76, the second half of group 8. -/
theorem test_decode_group8_high :
    decode 0b1000_0001_0010_0101#16 = some (.sub 1#4 2#4) ∧ decode 0b1000_0001_0010_0110#16 = some (.shiftRight 1#4 2#4) ∧
    decode 0b1000_0001_0010_0111#16 = some (.subn 1#4 2#4) ∧
    decode 0b1000_0001_0010_1110#16 = some (.shiftLeft 1#4 2#4) := by decide

/-- R74, R71: `DXYN`; R77: group E. -/
theorem test_decode_draw_and_keys :
    decode 0b1101_0001_0010_0101#16 = some (.draw 1#4 2#4 5#4) ∧ decode 0b1110_0010_10011110#16 = some (.keyPressed 2#4) ∧
    decode 0b1110_0010_10100001#16 = some (.keyNotPressed 2#4) := by decide

/-- R78: group F, the timers and the key wait. -/
theorem test_decode_timers :
    decode 0b1111_0011_00000111#16 = some (.getTimer 3#4) ∧ decode 0b1111_0100_00001010#16 = some (.waitForKey 4#4) ∧
    decode 0b1111_0001_00010101#16 = some (.setDelay 1#4) ∧ decode 0b1111_0001_00011000#16 = some (.setSound 1#4) := by
  decide

/-- R78: group F, index and memory. -/
theorem test_decode_index :
    decode 0b1111_0111_00011110#16 = some (.addToIndex 7#4) ∧ decode 0b1111_0111_00101001#16 = some (.fontChar 7#4) ∧
    decode 0b1111_0111_00110011#16 = some (.bcd 7#4) ∧ decode 0b1111_0010_01010101#16 = some (.storeRegs 2#4) ∧
    decode 0b1111_0010_01100101#16 = some (.loadRegs 2#4) := by decide

/-- V46, V72, V94, V104: unknown words of groups 0, 8, E and F. -/
theorem test_decode_unknown :
    [0x00E1#16, 0x00EF#16, 0x0123#16, 0x8008#16, 0x800D#16, 0x800F#16, 0xE000#16, 0xE09F#16, 0xE1A0#16, 0xF000#16,
      0xF008#16, 0xF01F#16, 0xF0FF#16].all (fun w => decode w == none) = true := by decide

/-- R82: the canonical words. -/
theorem test_encode_canonical :
    encode (.cls 0x0E#8) = 0x00E0#16 ∧ encode (.ret 0x0E#8) = 0x00EE#16 ∧ encode (.shiftRight 3#4 0#4) = 0x8306#16 := by
  decide

/-- R52: the bytes of a word, the high one first, and the rest of the list. -/
theorem test_decode_bytes :
    decodeBytes [0x61#8, 0x0A#8, 0x80#8] = .ok (.setConst 1#4 10#8, [0x80#8]) ∧
    decodeBytes [0xFF#8, 0xFF#8] = .error (.unknownOpcode 0xFFFF#16) ∧ decodeBytes [0x61#8] = .error .truncated := by
  decide

/-- The opcode table's numbering is the word itself (R6). -/
theorem test_decode_table_word : decodeTableWord 16 0x610A = some (.setConst 1#4 10#8) := by decide

/-- R82: the spelling of a row. -/
theorem test_asm_text : (Instr.draw 0#4 15#4 5#4).asmText = "DRAW V0,VF,5" ∧ (Instr.cls 0x0E#8).asmText = "CLS" := by
  decide

/-! ## Control transfer -/

/-- S5: the first cycle. -/
theorem test_call : after (step (start 0x2204#16)) (fun t => (t.pc, t.sp, t.stack[0])) = some (0x204#16, 1, 0x202#16) := by
  decide
/-- V7: the popped value is the pc, the cell stays. -/
theorem test_return :
    after (step ((start 0x0FFE#16).push 0x300#16 (by decide))) (fun t => (t.pc, t.sp, t.stack[0])) =
      some (0x300#16, 0, 0x300#16) := by decide
/-- V6. -/
theorem test_return_underflow :
    after (step (start 0x00EE#16)) (fun t => (record t, t.pc)) = some ((true, 3#3, 0x200#16, 0x00EE#16, 0#16), 0x200#16) := by
  decide
/-- S4. -/
theorem test_jump : after (step (start 0x1ABC#16)) State.pc = some 0xABC#16 := by decide
/-- V8 and V9. -/
theorem test_skipEqConst :
    after (step (start 0x3000#16)) State.pc = some 0x204#16 ∧ after (step (start 0x3001#16)) State.pc = some 0x202#16 := by
  decide
/-- V10 and V11. -/
theorem test_skipNeqConst :
    after (step (start 0x4F00#16)) State.pc = some 0x202#16 ∧ after (step (start 0x4F01#16)) State.pc = some 0x204#16 := by
  decide
/-- V13, and unequal registers. -/
theorem test_skipEqReg :
    after (step (((start 0x5121#16).setReg 1#4 1#8).setReg 2#4 1#8)) State.pc = some 0x204#16 ∧
    after (step ((start 0x5120#16).setReg 1#4 1#8)) State.pc = some 0x202#16 := by decide
/-- V15 and V14. -/
theorem test_skipNeqReg :
    after (step (((start 0x912F#16).setReg 1#4 1#8).setReg 2#4 2#8)) State.pc = some 0x204#16 ∧
    after (step ((start 0x9330#16).setReg 3#4 77#8)) State.pc = some 0x202#16 := by decide
/-- V16: the offset is `V[0]`, not `V[3]`. -/
theorem test_jumpOffset :
    after (step (((start 0xB300#16).setReg 0#4 4#8).setReg 3#4 9#8)) State.pc = some 0x304#16 := by decide

/-! ## Registers, ALU and flags -/

/-- V20. -/
theorem test_setConst : after (step (start 0x6FAB#16)) (State.reg · 15#4) = some 0xAB#8 := by decide
/-- V22: no carry flag. -/
theorem test_addConst :
    after (step ((start 0x7001#16).setReg 0#4 0xFF#8)) (fun t => (t.reg 0#4, t.reg 15#4)) = some (0#8, 0#8) := by decide
/-- V24. -/
theorem test_setReg :
    after (step (((start 0x8120#16).setReg 1#4 1#8).setReg 2#4 0x3C#8)) (fun t => (t.reg 1#4, t.reg 2#4)) =
      some (0x3C#8, 0x3C#8) := by decide
/-- V25. -/
theorem test_or :
    after (step ((((start 0x8011#16).setReg 0#4 0xF0#8).setReg 1#4 0x3C#8).setReg 15#4 9#8))
      (fun t => (t.reg 0#4, t.reg 15#4)) = some (0xFC#8, 9#8) := by decide
/-- V26. -/
theorem test_and :
    after (step (((start 0x8012#16).setReg 0#4 0xF0#8).setReg 1#4 0x3C#8)) (State.reg · 0#4) = some 0x30#8 := by decide
/-- V27. -/
theorem test_xor :
    after (step (((start 0x8013#16).setReg 0#4 0xF0#8).setReg 1#4 0x3C#8)) (State.reg · 0#4) = some 0xCC#8 := by decide
/-- V30. -/
theorem test_addReg_carry :
    after (step (((start 0x8014#16).setReg 0#4 200#8).setReg 1#4 56#8)) (fun t => (t.reg 0#4, t.reg 15#4)) =
      some (0#8, 1#8) := by decide
/-- V32: `X` = 15, the flag overwrites the sum. -/
theorem test_addReg_into_flag :
    after (step (((start 0x8F14#16).setReg 15#4 200#8).setReg 1#4 100#8)) (State.reg · 15#4) = some 1#8 := by decide
/-- S2. -/
theorem test_sub_borrow :
    after (step (((start 0x8015#16).setReg 0#4 5#8).setReg 1#4 10#8)) (fun t => (t.reg 0#4, t.reg 15#4)) =
      some (251#8, 0#8) := by decide
/-- V33: equal operands do not borrow. -/
theorem test_sub_equal :
    after (step (((start 0x8015#16).setReg 0#4 9#8).setReg 1#4 9#8)) (fun t => (t.reg 0#4, t.reg 15#4)) =
      some (0#8, 1#8) := by decide
/-- V36: `V[Y]` is not read. -/
theorem test_shiftRight :
    after (step (((start 0x8016#16).setReg 0#4 4#8).setReg 1#4 0xFF#8)) (fun t => (t.reg 0#4, t.reg 1#4, t.reg 15#4)) =
      some (2#8, 0xFF#8, 0#8) := by decide
/-- V38: `X` = 15. -/
theorem test_shiftRight_flag : after (step ((start 0x8F06#16).setReg 15#4 2#8)) (State.reg · 15#4) = some 0#8 := by decide
/-- V40: 10 - 250 borrows. -/
theorem test_subn :
    after (step (((start 0x8017#16).setReg 0#4 250#8).setReg 1#4 10#8)) (fun t => (t.reg 0#4, t.reg 15#4)) =
      some (16#8, 0#8) := by decide
/-- S12. -/
theorem test_shiftLeft :
    after (step ((start 0x800E#16).setReg 0#4 0x81#8)) (fun t => (t.reg 0#4, t.reg 15#4)) = some (2#8, 1#8) := by decide
/-- V45. -/
theorem test_rand :
    after (step (start 0xC30F#16 { quiet with rand := 0xA7#8 })) (State.reg · 3#4) = some 0x07#8 := by decide

/-! ## Index register and memory -/

/-- V50. -/
theorem test_setIndex : after (step (start 0xAFFF#16)) State.i = some 0x0FFF#16 := by decide
/-- V51 and V52: no flag, no mask, modulo 65536. -/
theorem test_addToIndex :
    after (step (((start 0xF01E#16).setIndex 0x0FFF#16).setReg 0#4 1#8)) (fun t => (t.i, t.reg 15#4)) =
      some (0x1000#16, 0#8) ∧
    after (step (((start 0xF01E#16).setIndex 0xFFFF#16).setReg 0#4 2#8)) State.i = some 1#16 := by decide
/-- V53: the low nibble. -/
theorem test_fontChar : after (step ((start 0xF029#16).setReg 0#4 0x1A#8)) State.i = some 0x82#16 := by decide
/-- V56. -/
theorem test_bcd :
    after (step (((start 0xF033#16).setIndex 0x300#16).setReg 0#4 255#8))
      (fun t => (t.byte 0x300, t.byte 0x301, t.byte 0x302, t.i)) = some (2#8, 5#8, 5#8, 0x300#16) := by decide
/-- V58: precise. -/
theorem test_bcd_fault :
    after (step (put (((start 0xF033#16).setIndex 0xFFE#16).setReg 0#4 7#8) 0xFFE [0xAA#8, 0xBB#8]))
      (fun t => (record t, t.byte 0xFFE, t.byte 0xFFF, t.pc)) =
      some ((true, 4#3, 0x200#16, 0xF033#16, 0x1000#16), 0xAA#8, 0xBB#8, 0x200#16) := by decide
/-- S8. -/
theorem test_storeRegs :
    after (step (((((start 0xF255#16).setIndex 0x300#16).setReg 0#4 1#8).setReg 2#4 3#8).setReg 3#4 4#8))
      (fun t => (t.byte 0x300, t.byte 0x301, t.byte 0x302, t.byte 0x303, t.i)) =
      some (1#8, 0#8, 3#8, 0#8, 0x300#16) := by decide
/-- V60. -/
theorem test_storeRegs_fault :
    after (step (((start 0xF155#16).setIndex 0xFFF#16).setReg 0#4 9#8)) (fun t => (record t, t.byte 0xFFF)) =
      some ((true, 4#3, 0x200#16, 0xF155#16, 0x1000#16), 0#8) := by decide
/-- V62, two registers of it: `V[X]` is loaded, `V[X + 1]` is not. -/
theorem test_loadRegs :
    after (step ((put ((start 0xF165#16).setIndex 0x300#16) 0x300 [1#8, 2#8, 3#8])))
      (fun t => (t.reg 0#4, t.reg 1#4, t.reg 2#4)) = some (1#8, 2#8, 0#8) := by decide
/-- V63: the base itself is outside memory. -/
theorem test_loadRegs_fault :
    after (step ((start 0xF065#16).setIndex 0x1234#16)) record = some (true, 4#3, 0x200#16, 0xF065#16, 0x1234#16) := by
  decide

/-! ## Display -/

/-- S3, V70: everything cleared, one FrameReady. -/
theorem test_cls :
    after (step ((start 0x00E0#16).setFb (Vector.replicate 32 0xFFFFFFFFFFFFFFFF#64)))
      (fun t => (t.fb == blankFb, t.dirty, t.events.length)) = some (true, false, 1) := by decide
/-- V75, the second DRAW of it: bits 3 and 4 on cells 0 to 3. -/
theorem test_draw_collision :
    after (step (put (((start 0xD011#16).setIndex 0x300#16).setFb (blankFb.set 0 0xF#64)) 0x300 [0x18#8]))
      (fun t => (t.fb[0], t.fb[1], t.reg 15#4)) = some (0x17#64, 0#64, 1#8) := by decide
/-- V73: both axes wrap. -/
theorem test_draw_wraps :
    after (step (put ((((start 0xD012#16).setIndex 0x300#16).setReg 0#4 62#8).setReg 1#4 31#8) 0x300 [0xFF#8, 0xFF#8]))
      (fun t => (t.fb[31], t.fb[0], t.fb[1], t.reg 15#4)) =
      some (0xC00000000000003F#64, 0xC00000000000003F#64, 0#64, 0#8) := by decide

/-! ## Keys and timers -/

/-- V90 and V91: the low nibble, and the refresh before the test. -/
theorem test_keyPressed :
    after (step ((start 0xE29E#16 { quiet with keys := 0x0020#16 }).setReg 2#4 0x15#8)) (fun t => (t.pc, t.keys)) =
      some (0x204#16, 0x0020#16) ∧
    after (step { (start 0xE29E#16).setReg 2#4 5#8 with keys := 0x0020#16 }) (fun t => (t.pc, t.keys)) =
      some (0x202#16, 0#16) := by decide
/-- V92 and V93. -/
theorem test_keyNotPressed :
    after (step ((start 0xE2A1#16 { quiet with keys := 0x0020#16 }).setReg 2#4 5#8)) State.pc = some 0x202#16 ∧
    after (step ((start 0xE2A1#16 { quiet with keys := 0x0040#16 }).setReg 2#4 5#8)) State.pc = some 0x204#16 := by decide
/-- V95. -/
theorem test_getTimer :
    after (step { start 0xF307#16 with dt := 0x2A#8 }) (fun t => (t.reg 3#4, t.dt)) = some (0x2A#8, 0x2A#8) := by decide
/-- V96, the first step: the wait begins, ticks are only counted. -/
theorem test_waitForKey :
    after (step { start 0xF40A#16 { quiet with ticks := 4 } with dt := 9#8 })
      (fun t => (t.phase, t.waitReg, t.pc, t.dt, t.pendingTicks)) =
      some (Phase.waitKey, 4#4, 0x200#16, 9#8, 4) := by decide
/-- V96, the step with the key-down: four pending ticks are drained. -/
theorem test_key_down :
    after (step { start 0xF40A#16 { quiet with keyDown := some 0xB#4 } with
        phase := .waitKey, waitReg := 4#4, dt := 9#8, pendingTicks := 4 })
      (fun t => (t.phase, t.reg 4#4, t.pc, t.dt, t.pendingTicks)) =
      some (Phase.ready, 0x0B#8, 0x202#16, 5#8, 0) := by decide
/-- V98 and V99. -/
theorem test_setDelay :
    after (step ((start 0xF115#16).setReg 1#4 60#8)) State.dt = some 60#8 ∧
    after (step ((start 0xF115#16 { quiet with ticks := 2 }).setReg 1#4 60#8)) State.dt = some 58#8 := by decide
/-- V101 and V102: exactly one beep, and none for a write of 0. -/
theorem test_setSound :
    after (step ((start 0xF118#16 { quiet with ticks := 5 }).setReg 1#4 2#8)) (fun t => (t.st, t.events)) =
      some (0#8, [Event.beep]) ∧
    after (step { start 0xF118#16 { quiet with ticks := 3 } with st := 7#8 }) (fun t => (t.st, t.events)) =
      some (0#8, []) := by decide

/-! ## The cycle, the loader -/

/-- S10. -/
theorem test_unknown_opcode :
    after (step (start 0xFFFF#16)) (fun t => (t.pc, t.halted, t.unkSeen, t.unkPc, t.unkOp)) =
      some (0x202#16, false, true, 0x200#16, 0xFFFF#16) := by decide
/-- V3, the second cycle. -/
theorem test_fetch_fault :
    after (step ((start 0x1FFF#16).setPc 0xFFF#16)) record = some (true, 4#3, 0xFFF#16, 0#16, 0x1000#16) := by decide
/-- V4, the second cycle: the last word of memory is executable. -/
theorem test_fetch_last_word :
    after (step (put ((start 0x1FFE#16).setPc 0xFFE#16) 0xFFE [0x60#8, 0x42#8])) (fun t => (t.reg 0#4, t.pc)) =
      some (0x42#8, 0x1000#16) := by decide
/-- V2, the second cycle: an odd pc. -/
theorem test_fetch_odd :
    after (step (put ((start 0x1203#16).setPc 0x203#16) 0x203 [0x61#8, 0x2A#8])) (fun t => (t.reg 1#4, t.pc)) =
      some (0x2A#8, 0x205#16) := by decide
/-- R213, R108: the ticks that elapse in a cycle that halts the core are counted and not applied. -/
theorem test_halting_step_counts_ticks :
    after (step { start 0x00EE#16 { quiet with ticks := 3 } with dt := 9#8 }) (fun t => (t.halted, t.pendingTicks, t.dt)) =
      some (true, 3, 9#8) := by decide
/-- U18: no step from HALTED. -/
theorem test_halted : step { start 0x00E0#16 with halted := true } = .fault .halted := rfl
/-- R242, R243: glyph F is the last one, 0x9B to 0x9F; a small ROM at 0x200 (P2's first word). -/
theorem test_boot :
    (State.boot Config.defaultFont [0x60#8, 0x03#8]).map
      (fun s => (s.byte 0x4F, s.byte 0x50, s.byte 0x9F, s.byte 0xA0, s.byte 0x200, s.byte 0x201, s.byte 0x202)) =
      some (0#8, 0xF0#8, 0x80#8, 0#8, 0x60#8, 0x03#8, 0#8) := by decide

/-! ## Witnesses: for each statement with hypotheses a case that meets them, clause by clause at the boundaries -/

/-- Hypotheses of EncodeOfDecodeIsTheWord. -/
theorem witness_EncodeOfDecode : decode 0x5121#16 = some (.skipEqReg 1#4 2#4 1#4) := by decide
/-- Hypotheses of WordDecodesToARowExactlyWhenItMatches: a row, a word that matches it, a word that does not. -/
theorem witness_WordDecodesToARow :
    (Instr.cls 0#8).row ∈ opcodeTable ∧ 0x0120#16 &&& (Instr.cls 0#8).row.mask = (Instr.cls 0#8).row.pattern ∧
    0x0121#16 &&& (Instr.cls 0#8).row.mask ≠ (Instr.cls 0#8).row.pattern := by decide
/-- Each clause of UnknownWordsAreExactlyThese, and its edges. -/
theorem witness_UnknownWords :
    decode 0x0001#16 = none ∧ decode 0x0FFF#16 = none ∧ decode 0x8008#16 = none ∧ decode 0x8FFD#16 = none ∧
    decode 0x8FFF#16 = none ∧ decode 0xE000#16 = none ∧ decode 0xEFFF#16 = none ∧ decode 0xF000#16 = none ∧
    decode 0xFFFF#16 = none := by decide
/-- Hypotheses of StepRunsTheDecodedInstruction, at the highest pc, 4094 (V4). -/
theorem witness_StepRuns :
    let s := put ((start 0x1FFE#16).setPc 0xFFE#16) 0xFFE [0x60#8, 0x42#8]
    s.halted = false ∧ s.phase = .ready ∧ s.pc.toNat = 4094 ∧
    decode (BitVec.ofNat 16 ((s.byte s.pc.toNat).toNat * 256 + (s.byte (s.pc.toNat + 1)).toNat)) =
      some (.setConst 0#4 0x42#8) := by decide
/-- The three clauses of EndOfCycleDrainsTicksAndReportsTheFrame; in the last one tick of one, then of none, and a
dirty frame (R211, R212, R107). -/
theorem witness_EndOfCycle :
    (State.endCycle { start 0x00E0#16 { quiet with ticks := 3 } with halted := true, dt := 9#8 }).dt = 9#8 ∧
    (State.endCycle { start 0x00E0#16 { quiet with ticks := 3 } with halted := true, dt := 9#8 }).pendingTicks = 3 ∧
    (State.endCycle { start 0x00E0#16 { quiet with ticks := 3 } with phase := .waitKey, pendingTicks := 2 }).pendingTicks = 5 ∧
    (State.endCycle { start 0x00E0#16 { quiet with ticks := 1 } with st := 1#8, dirty := true }).events =
      [.beep, .frameReady blankFb] ∧
    (State.endCycle { start 0x00E0#16 with st := 1#8 }).events = [] := by decide
/-- Hypotheses of UnknownOpcodeIsARecordedNoOp (S10). -/
theorem witness_UnknownOpcode :
    let s := start 0xFFFF#16
    s.halted = false ∧ s.phase = .ready ∧ s.pc.toNat ≤ 4094 ∧
    BitVec.ofNat 16 ((s.byte s.pc.toNat).toNat * 256 + (s.byte (s.pc.toNat + 1)).toNat) = 0xFFFF#16 ∧
    decode 0xFFFF#16 = none := by decide
/-- Hypotheses of FetchOutsideMemoryHalts, at the lowest such pc, 4095. -/
theorem witness_FetchOutside :
    let s := (start 0x1FFF#16).setPc 0xFFF#16
    s.halted = false ∧ s.phase = .ready ∧ 4094 < s.pc.toNat := by decide
/-- Both clauses of EveryStepAnswersUnlessHalted. -/
theorem witness_EveryStepAnswers :
    (start 0x00E0#16).halted = false ∧ (State.raise (start 0x00EE#16) .stackUnderflow 0#16 0#16).halted = true := by decide
/-- Hypotheses of WaitHoldsUntilAKeyGoesDown (V97). -/
theorem witness_WaitHolds :
    let s := { start 0xF40A#16 { quiet with ticks := 4 } with phase := .waitKey, waitReg := 4#4 }
    s.halted = false ∧ s.phase = .waitKey ∧ s.input.keyDown = none := by decide
/-- Hypotheses of KeyDownEndsTheWait (V96), key F included. -/
theorem witness_KeyDown :
    let s := { start 0xF40A#16 { quiet with keyDown := some 0xF#4 } with phase := .waitKey, waitReg := 4#4 }
    s.halted = false ∧ s.phase = .waitKey ∧ s.input.keyDown = some 0xF#4 ∧ after (step s) (State.reg · 4#4) = some 15#8 := by
  decide
/-- The events of KeyDownEndsTheWait at their edge: the ticks of the wait take ST from 5 to 0, or only to 1 (R211,
R212). -/
theorem witness_KeyDown_beep :
    let s := { start 0xF40A#16 { quiet with keyDown := some 0xB#4, ticks := 1 } with phase := .waitKey, st := 5#8 }
    after (step { s with pendingTicks := 4 }) (fun t => (t.st, t.events)) = some (0#8, [Event.beep]) ∧
    after (step { s with pendingTicks := 3 }) (fun t => (t.st, t.events)) = some (1#8, []) := by decide
/-- Both clauses of ReturnPopsThePc at their edge: one live entry, none. -/
theorem witness_Return :
    0 < ((start 0x00EE#16).push 0x300#16 (by decide)).sp.val ∧ (start 0x00EE#16).sp.val = 0 ∧
    after (exec (.ret 0x0E#8) ((start 0x00EE#16).push 0x300#16 (by decide))) (fun t => (t.sp, t.pc)) = some (0, 0x300#16) ∧
    after (exec (.ret 0x0E#8) (start 0x00EE#16)) State.errKind = some 3#3 := by decide
/-- Both clauses of CallPushesTheNextAddress at their edge: 15 live entries, 16 (V5). -/
theorem witness_Call :
    after (exec (.call 0x200#12) { start 0x2200#16 with sp := 15 }) (fun t => (t.sp, t.stack[15], t.halted)) =
      some (16, 0x202#16, false) ∧
    after (exec (.call 0x200#12) { start 0x2200#16 with sp := 16 }) (fun t => (t.sp, t.errKind, t.halted)) =
      some (16, 2#3, true) := by decide
/-- Hypotheses of ReturnComesBackAfterTheCall: the last free entry, and the state CALL leaves. -/
theorem witness_ReturnComesBack :
    let s := { start 0x2204#16 with sp := 15 }
    s.sp.val < 16 ∧ after (exec (.call 0x204#12) s) (fun t => after (exec (.ret 0#8) t) (fun v => (v.pc, v.sp))) =
      some (some (0x202#16, 15)) := by decide
/-- The clause `X` ≠ 15 of the flag-writing instructions. -/
theorem witness_FlagInstructions : (14#4 : Nibble) ≠ 15#4 ∧ (0#4 : Nibble) ≠ 15#4 := by decide
/-- Hypotheses of RandMasksTheDrawnByte (V45): the drawn byte is any byte, and a bit outside `NN`. -/
theorem witness_Rand :
    (start 0xC30F#16 { quiet with rand := 0xA7#8 }).input.rand = 0xA7#8 ∧ (0x0F#8).getLsbD 7 = false := by decide
/-- Both clauses of BcdStoresThreeDigits at their edge: `I` = 4093 and 4094 (V57, V58). -/
theorem witness_Bcd :
    let s := (start 0xF033#16).setReg 0#4 7#8
    Memory.wf (s.setIndex 0xFFD#16).mem = true ∧ (s.setIndex 0xFFD#16).i.toNat + 2 ≤ 4095 ∧
    4095 < (s.setIndex 0xFFE#16).i.toNat + 2 ∧
    after (exec (.bcd 0#4) (s.setIndex 0xFFD#16)) (fun t => (t.byte 0xFFF, t.halted)) = some (7#8, false) ∧
    after (exec (.bcd 0#4) (s.setIndex 0xFFE#16)) (fun t => (t.byte 0xFFF, t.halted)) = some (0#8, true) := by decide
/-- Both clauses of StoreRegsStoresTheRange at their edge: `X` = 0 and 1 with `I` = 4095 (V59, V60). -/
theorem witness_StoreRegs :
    let s := ((start 0xF055#16).setReg 0#4 9#8).setIndex 0xFFF#16
    Memory.wf s.mem = true ∧ s.i.toNat + (0#4).toNat ≤ 4095 ∧ 4095 < s.i.toNat + (1#4).toNat ∧
    after (exec (.storeRegs 0#4) s) (fun t => (t.byte 0xFFF, t.halted)) = some (9#8, false) ∧
    after (exec (.storeRegs 1#4) s) (fun t => (t.byte 0xFFF, t.halted)) = some (0#8, true) := by decide
/-- Both clauses of LoadRegsLoadsTheRange at the same edge. -/
theorem witness_LoadRegs :
    let s := put ((start 0xF065#16).setIndex 0xFFF#16) 0xFFF [9#8]
    s.i.toNat + (0#4).toNat ≤ 4095 ∧ 4095 < s.i.toNat + (1#4).toNat ∧
    after (exec (.loadRegs 0#4) s) (fun t => (t.reg 0#4, t.halted)) = some (9#8, false) ∧
    after (exec (.loadRegs 1#4) s) (fun t => (t.reg 0#4, t.halted)) = some (0#8, true) := by decide
/-- Hypotheses of AStoreIsSeenByTheNextFetch (P6, with both bytes stored). -/
theorem witness_StoreThenFetch :
    let s := (((start 0xF155#16).setReg 0#4 0x61#8).setReg 1#4 0x2A#8).setIndex 0x206#16
    Memory.wf s.mem = true ∧ s.i.toNat + (1#4).toNat ≤ 4095 ∧ (0#4).toNat + 1 ≤ (1#4).toNat ∧
    after (exec (.storeRegs 1#4) s) (fun t => (t.setPc 0x206#16).fetch) = some (some 0x612A#16) := by decide
/-- The clauses of ClsBlanksTheFramebuffer and DrawXorsTheSpriteAndFlagsCollision at their edges: `N` = 0 with `I`
outside memory (V77), `N` = 1 with `I` = 4095 (V79), `N` = 2 with `I` = 4095 (V78). -/
theorem witness_Draw :
    after (exec (.draw 0#4 1#4 0#4) ((start 0xD010#16).setIndex 0x2000#16)) (fun t => (t.halted, t.fb == blankFb, t.dirty)) =
      some (false, true, true) ∧
    after (exec (.draw 0#4 1#4 1#4) (put (((start 0xD011#16).setIndex 0xFFF#16).setReg 0#4 63#8) 0xFFF [0x01#8]))
      (fun t => (t.halted, t.fb[0], t.reg 15#4)) = some (false, 0x40#64, 0#8) ∧
    after (exec (.draw 0#4 1#4 2#4) (((start 0xD012#16).setIndex 0xFFF#16).setReg 15#4 7#8))
      (fun t => (t.halted, t.fb == blankFb, t.reg 15#4)) = some (true, true, 7#8) := by decide
/-- Hypotheses of DrawingTwiceRestoresTheFramebuffer, and its outcome (V[F] is 0, then 1). -/
theorem witness_DrawTwice :
    let s := put ((start 0xD011#16).setIndex 0x300#16) 0x300 [0x80#8]
    (0#4 : Nibble) ≠ 15#4 ∧ (1#4 : Nibble) ≠ 15#4 ∧ s.i.toNat + (1#4).toNat - 1 ≤ 4095 ∧
    after (exec (.draw 0#4 1#4 1#4) s) (fun t => (t.reg 15#4, after (exec (.draw 0#4 1#4 1#4) t)
      (fun u => (u.reg 15#4, u.fb == s.fb)))) = some (0#8, some (1#8, true)) := by decide
/-- Hypotheses of the second half of WaitForKeyBeginsTheWait. -/
theorem witness_WaitForKey :
    let s := start 0xF40A#16 { quiet with keyDown := some 0xB#4 }
    s.halted = false ∧ after (exec (.waitForKey 4#4) s) (fun t => t.input.keyDown) = some (some 0xB#4) := by decide
/-- Hypotheses of OnlyDestinationAndFlagRegistersChange: a register ADD_REG leaves alone. -/
theorem witness_RegisterFrame :
    after (exec (.addReg 0#4 1#4) (start 0x8014#16)) (State.reg · 1#4) = some 0#8 ∧
    (Instr.addReg 0#4 1#4).mayWriteReg 1#4 = false ∧ (Instr.loadRegs 3#4).mayWriteReg 4#4 = false ∧
    (Instr.loadRegs 3#4).mayWriteReg 3#4 = true := by decide
/-- Both premises of OnlyBcdAndStoreRegsChangeMemory: an address outside the stored bytes, and a BCD that halts. -/
theorem witness_MemoryFrame :
    let s := (start 0xF033#16).setIndex 0x300#16
    (Instr.bcd 0#4).storesAt s 0x2FF = false ∧ (Instr.bcd 0#4).storesAt s 0x302 = true ∧
    (Instr.bcd 0#4).storesAt s 0x303 = false ∧ after (exec (.bcd 0#4) s) State.halted = some false ∧
    after (exec (.bcd 0#4) (s.setIndex 0xFFE#16)) State.halted = some true := by decide
/-- The premises of EachSpecialRegisterHasItsWriters: an instruction that is none of the writers. -/
theorem witness_SpecialRegisterFrame :
    after (exec (.jump 0x200#12) (start 0x1200#16)) State.pc = some 0x200#16 ∧ (Instr.jump 0x200#12).drawsFrame = false := by
  decide
/-- Hypotheses of PcAdvancesByTwoOrFourOrIsSet and FaultsArePreciseAndOfTheirInstruction: a running core, and a
RETURN that halts it. -/
theorem witness_Faults :
    (start 0x00EE#16).halted = false ∧ after (exec (.ret 0x0E#8) (start 0x00EE#16)) State.halted = some true ∧
    after (exec (.skipEqConst 0#4 0#8) (start 0x3000#16)) State.pc = some 0x204#16 := by decide
/-- Hypotheses of HaltingStepChangesOnlyTheRecord: a halting cycle with a word fetched, and one without. -/
theorem witness_HaltingStep :
    after (step (start 0x00EE#16)) State.halted = some true ∧
    after (step ((start 0x00EE#16).setPc 0xFFF#16)) State.halted = some true := by decide
/-- Both premises of FrameReadyOnceForEachDirtyCycle: a CLS, and an instruction that draws nothing. -/
theorem witness_FrameReady :
    (start 0x00E0#16).dirty = false ∧ after (step (start 0x00E0#16)) (fun t => (t.halted, t.events)) =
      some (false, [Event.frameReady blankFb]) ∧ after (step (start 0x6005#16)) State.events = some [] := by decide
/-- Hypotheses of TicksReachTheRestOnlyThroughGetTimer: the same cycle with other timers and another number of ticks. -/
theorem witness_Ticks :
    let s := start 0x6005#16
    let t := { start 0x6005#16 { quiet with ticks := 7 } with dt := 3#8, st := 2#8, pendingTicks := 1 }
    sameButTime s t ∧ s.input.keys = t.input.keys ∧ s.input.rand = t.input.rand ∧ s.input.keyDown = t.input.keyDown ∧
    s.fetch = some 0x6005#16 ∧ decode 0x6005#16 = some (.setConst 0#4 5#8) ∧ after (step s) State.pc = some 0x202#16 := by
  refine ⟨rfl, rfl, rfl, rfl, ?_, ?_, ?_⟩ <;> decide
/-- A state that meets Invariant and is not reset: two live entries, a pc at the bound 0x10FE. -/
theorem witness_Invariant :
    Invariant ((((start 0x00E0#16).push 0x202#16 (by decide)).push 0x1000#16 (by decide)).setPc 0x10FE#16) where
  memory := by decide
  pc := by constructor <;> decide
  stack := by unfold State.stackBounded; decide
  clean := by decide
  drained := by decide
  record := ⟨by decide, by decide, by decide⟩
/-- Hypotheses of StepKeepsTheInvariant: the state above less the pc answers a next state. -/
theorem witness_InvariantStep :
    after (step (((start 0x00EE#16).push 0x202#16 (by decide)).push 0x1000#16 (by decide))) State.pc = some 0x1000#16 := by
  decide
/-- Hypotheses of ReachableStatesMeetTheInvariant: a booted core that has taken a step and been reset. -/
theorem witness_Reachable : ∃ s t : State, Reachable s ∧ step s = .next t ∧ Reachable t.hostReset :=
  ⟨_, _, .booted (List.replicate 80 0#8) [] _ [quiet] rfl, rfl,
    .wasReset _ (.stepped _ _ (.booted (List.replicate 80 0#8) [] _ [quiet] rfl) rfl)⟩
/-- Both cases of ResetLeavesTheValuesOfTheTable differ: a reset from a state that is not reset. -/
theorem witness_HostReset : (start 0x00E0#16).hostReset ≠ State.reset ∧ (start 0x00E0#16).hostReset.mem = [] := by
  refine ⟨fun h => ?_, rfl⟩
  have := congrArg State.inputs h
  exact absurd this (by decide)
/-- Both clauses of BootPlacesFontAndRom at their edge: 3584 bytes and 3585. -/
theorem witness_Boot :
    Config.defaultFont.length = 80 ∧ (List.replicate 3584 0#8).length ≤ 3584 ∧ 3584 < (List.replicate 3585 0#8).length := by
  refine ⟨by decide, ?_, ?_⟩ <;> rw [List.length_replicate]
  decide

end Sys2Proof.Tests
end

/-! # Everything EXECUTE can do, and what follows of it for the state (10_state)

`Effect i s t` says once what `exec i s = .next t` can mean, in fifteen shapes instead of 34 arms. The frame of an
instruction, where `pc` goes, when the frame is dirty and the invariant are read off the shapes. -/

namespace Sys2Proof

/-- How many bytes an instruction reads or writes from `I` up; 0 for one that accesses none (R55). -/
def Instr.accessLength : Instr → Nat
  | .bcd _ => 3
  | .storeRegs x => x.toNat + 1
  | .loadRegs x => x.toNat + 1
  | .draw _ _ n => n.toNat
  | _ => 0

theorem Instr.accessLength_pos {i : Instr} (h : 0 < i.accessLength) :
    (∃ x, i = .bcd x) ∨ (∃ x, i = .storeRegs x) ∨ (∃ x, i = .loadRegs x) ∨ ∃ x y n, i = .draw x y n := by
  cases i <;> simp_all [Instr.accessLength]

end Sys2Proof

namespace Sys2Proof.Machine

/-! ## The shapes of an EXECUTE -/

/-- What EXECUTE of an instruction makes of a state: a fatal fault and nothing else (R110), or one of the effects of
41_control_transfer to 45_keys_timers. -/
inductive Effect : Instr → State → State → Prop where
  /-- CALL on a full stack (R122). -/
  | overflow {s : State} (nnn : Addr12) (full : s.sp.val = Config.stackCapacity) :
      Effect (.call nnn) s (s.raise .stackOverflow 0#16 (encode (.call nnn)))
  /-- RETURN on an empty stack (R120). -/
  | underflow {s : State} (ign : BitVec 8) (empty : s.sp.val = 0) :
      Effect (.ret ign) s (s.raise .stackUnderflow 0#16 (encode (.ret ign)))
  /-- An access through `I` with a byte outside memory (R55). -/
  | outside {i : Instr} {s : State} (accesses : 0 < i.accessLength)
      (beyond : Config.memorySize < s.i.toNat + i.accessLength) :
      Effect i s (s.raise .outOfBoundsMemoryAccess (offendingAddress s.i) (encode i))
  /-- Registers the instruction may write (42_alu, GET_TIMER, LOAD_REGS). -/
  | registers {i : Instr} {s : State} (v : Vector Byte Config.numRegs)
      (kept : ∀ y, i.mayWriteReg y = false → State.reg { s with v := v } y = s.reg y) :
      Effect i s (State.advance { s with v := v } 2#16)
  /-- `I` (R160 to R162). -/
  | index {i : Instr} {s : State} (w : Word)
      (which : (∃ n, i = .setIndex n) ∨ (∃ x, i = .addToIndex x) ∨ ∃ x, i = .fontChar x) :
      Effect i s ((s.setIndex w).advance 2#16)
  /-- Bytes stored at `I` up, all inside memory (R163, R164). -/
  | store {i : Instr} {s : State} (bs : List Byte) (inside : s.i.toNat + bs.length ≤ Config.memorySize)
      (stored : ∀ a, i.storesAt s a = true ↔ s.i.toNat ≤ a ∧ a < s.i.toNat + bs.length) :
      Effect i s ((s.setMem (Memory.writeBytes s.mem s.i.toNat bs)).advance 2#16)
  /-- The framebuffer, and `V[F]` where the instruction may write it (R170, R171). -/
  | frame {i : Instr} {s : State} (fb : Vector PixelRow Config.fbHeight) (v : Vector Byte Config.numRegs)
      (draws : i.drawsFrame = true)
      (kept : ∀ y, i.mayWriteReg y = false → State.reg { s with v := v } y = s.reg y) :
      Effect i s (State.advance { s.setFb fb with v := v } 2#16)
  /-- A skip on registers and constants (R123 to R126). -/
  | skip {i : Instr} {s : State} (taken : Bool)
      (which : (∃ x nn, i = .skipEqConst x nn ∨ i = .skipNeqConst x nn) ∨
        ∃ x y g, i = .skipEqReg x y g ∨ i = .skipNeqReg x y g) :
      Effect i s (s.skipIf taken)
  /-- A skip on a key, which refreshes `KEYS` (R180, R181). -/
  | keySkip {i : Instr} {s : State} (taken : Bool) (x : Nibble) (which : i = .keyPressed x ∨ i = .keyNotPressed x) :
      Effect i s (s.refreshKeys.skipIf taken)
  /-- JUMP and JUMP_OFFSET, with the bound of R24 on the target (R121, R127). -/
  | jump {i : Instr} {s : State} (target : Word) (nnn : Addr12) (which : i = .jump nnn ∨ i = .jumpOffset nnn)
      (bound : target.toNat ≤ 0x10FE) : Effect i s (s.setPc target)
  /-- CALL (R122). -/
  | call {s : State} (nnn : Addr12) (room : s.sp.val < Config.stackCapacity) :
      Effect (.call nnn) s ((s.push (s.pc + 2#16) room).setPc (address nnn))
  /-- RETURN (R120). -/
  | ret {s : State} (ign : BitVec 8) (live : 0 < s.sp.val) : Effect (.ret ign) s (s.dropTop.setPc (s.top live))
  /-- WAIT_FOR_KEY: the wait begins (R183). -/
  | wait {s : State} (x : Nibble) : Effect (.waitForKey x) s { s with waitReg := x, phase := .waitKey }
  /-- SET_DELAY (R184). -/
  | delay {s : State} (x : Nibble) : Effect (.setDelay x) s (State.advance { s with dt := s.reg x } 2#16)
  /-- SET_SOUND (R185). -/
  | sound {s : State} (x : Nibble) : Effect (.setSound x) s (State.advance { s with st := s.reg x } 2#16)

/-! ## Every arm has one of the shapes -/

/-- An instruction whose one destination is `V[x]`. -/
theorem Effect.setReg {i : Instr} {s : State} {x : Nibble} {b : Byte}
    (dest : ∀ y, i.mayWriteReg y = (y == x)) : Effect i s ((s.setReg x b).advance 2#16) :=
  .registers _ fun y hy => State.reg_setReg_other s b (by simpa [dest] using hy)

/-- An instruction that writes `V[x]` and then the flag (R111). -/
theorem Effect.setRegFlag {i : Instr} {s : State} {x : Nibble} {b f : Byte}
    (dest : ∀ y, i.mayWriteReg y = (y == x || y == 15#4)) : Effect i s ((s.setRegFlag x b f).advance 2#16) :=
  .registers _ fun y hy => by
    simp only [dest, Bool.or_eq_false_iff, beq_eq_false_iff_ne] at hy
    exact State.reg_setRegFlag_other s b f hy.1 hy.2

/-- An access through `I` faults or has the effect it has inside memory. -/
theorem Effect.ofAccess {i : Instr} {s t u : State} (h : s.accessAtIndex i.accessLength (encode i) t = .next u)
    (inside : i.accessLength = 0 ∨ s.i.toNat + i.accessLength ≤ Config.memorySize → Effect i s t) : Effect i s u := by
  obtain ⟨hpos, hout, rfl⟩ | ⟨hin, rfl⟩ := State.accessAtIndex_cases h
  · exact .outside hpos hout
  · exact inside hin

theorem address_toNat_le (nnn : Addr12) : (address nnn).toNat ≤ 0xFFF := by
  have := nnn.isLt
  simp only [address, BitVec.toNat_setWidth]
  omega

/-- The highest target of a JUMP_OFFSET is 0xFFF + 0xFF (R24, R127). -/
theorem State.offsetTarget_toNat_le (s : State) (nnn : Addr12) : (s.offsetTarget nnn).toNat ≤ 0x10FE := by
  have ha := address_toNat_le nnn
  have hr := (s.reg 0#4).isLt
  simp only [State.offsetTarget, BitVec.toNat_add, BitVec.toNat_setWidth]
  omega

theorem exec_ret_effect {ign : BitVec 8} {s t : State} (h : exec (.ret ign) s = .next t) : Effect (.ret ign) s t := by
  obtain rfl := Host.Outcome.next.inj h
  split
  · exact .ret ign _
  · exact .underflow ign (by omega)

theorem exec_call_effect {nnn : Addr12} {s t : State} (h : exec (.call nnn) s = .next t) :
    Effect (.call nnn) s t := by
  obtain rfl := Host.Outcome.next.inj h
  split
  · exact .call nnn _
  · exact .overflow nnn (by omega)

theorem exec_bcd_effect {x : Nibble} {s t : State} (h : exec (.bcd x) s = .next t) : Effect (.bcd x) s t :=
  .ofAccess h fun hin => .store (bcdDigits (s.reg x)) (by simpa [Instr.accessLength, bcdDigits] using hin)
    fun a => by simp [Instr.storesAt, bcdDigits]

theorem exec_storeRegs_effect {x : Nibble} {s t : State} (h : exec (.storeRegs x) s = .next t) :
    Effect (.storeRegs x) s t :=
  .ofAccess h fun hin => .store (s.regsUpTo x) (by simpa [Instr.accessLength] using hin)
    fun a => by simp only [Instr.storesAt, State.length_regsUpTo, Bool.and_eq_true, decide_eq_true_eq]; omega

theorem exec_loadRegs_effect {x : Nibble} {s t : State} (h : exec (.loadRegs x) s = .next t) :
    Effect (.loadRegs x) s t :=
  .ofAccess h fun _ => .registers _ fun y hy =>
    (State.reg_loadRegsFrom s s.i.toNat x y).trans (if_neg (by simpa [Instr.mayWriteReg] using hy))

theorem exec_draw_effect {x y n : Nibble} {s t : State} (h : exec (.draw x y n) s = .next t) :
    Effect (.draw x y n) s t :=
  .ofAccess h fun _ => .frame _ _ rfl fun z hz =>
    State.reg_setReg_other s _ (by simpa [Instr.mayWriteReg, regF] using hz)

/-- Everything EXECUTE can do (R103): the inversion lemma of `exec`. -/
theorem exec_effect {i : Instr} {s t : State} (h : exec i s = .next t) : Effect i s t := by
  have of_next {u : State} (hu : exec i s = .next u) (he : Effect i s u) : Effect i s t :=
    Host.Outcome.next.inj (hu.symm.trans h) ▸ he
  cases i with
  | cls ign => exact of_next rfl (.frame blankFb s.v rfl fun _ _ => rfl)
  | ret ign => exact exec_ret_effect h
  | jump nnn => exact of_next rfl (.jump _ nnn (.inl rfl) ((address_toNat_le nnn).trans (by decide)))
  | call nnn => exact exec_call_effect h
  | skipEqConst x nn => exact of_next rfl (.skip _ (.inl ⟨x, nn, .inl rfl⟩))
  | skipNeqConst x nn => exact of_next rfl (.skip _ (.inl ⟨x, nn, .inr rfl⟩))
  | skipEqReg x y ign => exact of_next rfl (.skip _ (.inr ⟨x, y, ign, .inl rfl⟩))
  | setConst x nn => exact of_next rfl (.setReg fun _ => rfl)
  | addConst x nn => exact of_next rfl (.setReg fun _ => rfl)
  | setReg x y => exact of_next rfl (.setReg fun _ => rfl)
  | orReg x y => exact of_next rfl (.setReg fun _ => rfl)
  | andReg x y => exact of_next rfl (.setReg fun _ => rfl)
  | xorReg x y => exact of_next rfl (.setReg fun _ => rfl)
  | addReg x y => exact of_next rfl (.setRegFlag fun _ => rfl)
  | sub x y => exact of_next rfl (.setRegFlag fun _ => rfl)
  | shiftRight x ign => exact of_next rfl (.setRegFlag fun _ => rfl)
  | subn x y => exact of_next rfl (.setRegFlag fun _ => rfl)
  | shiftLeft x ign => exact of_next rfl (.setRegFlag fun _ => rfl)
  | skipNeqReg x y ign => exact of_next rfl (.skip _ (.inr ⟨x, y, ign, .inr rfl⟩))
  | setIndex nnn => exact of_next rfl (.index _ (.inl ⟨nnn, rfl⟩))
  | jumpOffset nnn => exact of_next rfl (.jump _ nnn (.inr rfl) (s.offsetTarget_toNat_le nnn))
  | rand x nn => exact of_next rfl (.setReg fun _ => rfl)
  | draw x y n => exact exec_draw_effect h
  | keyPressed x => exact of_next rfl (.keySkip _ x (.inl rfl))
  | keyNotPressed x => exact of_next rfl (.keySkip _ x (.inr rfl))
  | getTimer x => exact of_next rfl (.setReg fun _ => rfl)
  | waitForKey x => exact of_next rfl (.wait x)
  | setDelay x => exact of_next rfl (.delay x)
  | setSound x => exact of_next rfl (.sound x)
  | addToIndex x => exact of_next rfl (.index _ (.inr (.inl ⟨x, rfl⟩)))
  | fontChar x => exact of_next rfl (.index _ (.inr (.inr ⟨x, rfl⟩)))
  | bcd x => exact exec_bcd_effect h
  | storeRegs x => exact exec_storeRegs_effect h
  | loadRegs x => exact exec_loadRegs_effect h

end Sys2Proof.Machine

/-! ## The invariant (R24 to R28, R32, R35) -/

namespace Sys2Proof.Machine

/-- What holds of a state that EXECUTE, a faulting FETCH or a wait leaves, before the end of the cycle: the invariant,
but for the ticks, and with a frame that may still be dirty on the way to READY (R106, R107). -/
structure BeforeCycleEnd (u : State) : Prop where
  memory : Memory.wf u.mem = true
  pc : u.pcBounded
  stack : u.stackBounded
  clean : u.halted = true ∨ u.phase = .waitKey → u.dirty = false
  record : u.recordConsistent

/-- The end of a cycle drains the ticks and cleans the frame, and keeps the rest. -/
theorem BeforeCycleEnd.endCycle {u : State} (h : BeforeCycleEnd u) : Invariant u.endCycle where
  memory := by simpa using h.memory
  pc := by simpa [State.pcBounded] using h.pc
  stack := by simpa [State.stackBounded] using h.stack
  clean := by
    obtain ⟨hh, he⟩ | ⟨_, hp, he⟩ | ⟨_, _, he⟩ := u.endCycle_cases <;> rw [he]
    · exact h.clean (.inl hh)
    · exact h.clean (.inr hp)
    · rfl
  drained hh hp := by
    rw [State.endCycle_halted] at hh
    rw [State.endCycle_phase] at hp
    rw [State.endCycle_of_ready hh hp]
    rfl
  record := by simpa [State.recordConsistent] using h.record

theorem State.pcBounded_of_ready {u : State} (hp : u.phase = .ready) (hpc : u.pc.toNat ≤ 0x10FE) : u.pcBounded :=
  ⟨hpc, fun hw => nomatch hp.symm.trans hw⟩

theorem toNat_add_le_of_fetched {pc : Word} (hpc : pc.toNat ≤ 4094) (n : Word) :
    (pc + n).toNat ≤ 4094 + n.toNat := by
  rw [BitVec.toNat_add]
  omega

/-- At READY and running, the frame may be dirty and the phase bounds nothing. -/
theorem BeforeCycleEnd.of_ready {u : State} (hh : u.halted = false) (hp : u.phase = .ready)
    (hpc : u.pc.toNat ≤ 0x10FE) (hm : Memory.wf u.mem = true) (hs : u.stackBounded) (hr : u.recordConsistent) :
    BeforeCycleEnd u where
  memory := hm
  pc := State.pcBounded_of_ready hp hpc
  stack := hs
  clean := by simp [hh, hp]
  record := hr

section
variable {s : State} (h : Invariant s)
include h

/-- Fatal fault entry touches nothing the invariant speaks of but the record (R206). -/
theorem Invariant.raise {kind : FaultKind} (hk : kind ≠ .unknownOpcode) (addr op : Word) :
    BeforeCycleEnd (s.raise kind addr op) where
  memory := h.memory
  pc := h.pc
  stack := h.stack
  clean _ := h.clean
  record := by
    refine ⟨fun _ => ?_, nofun, h.record.2.2⟩
    cases kind with
    | unknownOpcode => exact absurd rfl hk
    | stackOverflow => exact .inl rfl
    | stackUnderflow => exact .inr (.inl rfl)
    | outOfBoundsMemoryAccess => exact .inr (.inr rfl)

/-- A push of an address that a CALL can push keeps the bound of the stack cells. -/
theorem Invariant.stackBounded_push {w : Word} (hw : w.toNat ≤ 4096) (room : s.sp.val < Config.stackCapacity) :
    (s.push w room).stackBounded := by
  intro k
  simp only [State.push_stack, Fin.getElem_fin, Vector.getElem_set]
  split
  · exact hw
  · exact h.stack k

theorem Invariant.top_le (live : 0 < s.sp.val) : (s.top live).toNat ≤ 4096 :=
  h.stack ⟨s.sp.val - 1, by have := s.sp.isLt; omega⟩

/-- WAIT_KEY: with no key-down nothing changes, a key-down moves `pc` on from inside memory (R105). -/
theorem Invariant.wakeOnKey (run : s.halted = false) (hp : s.phase = .waitKey) : BeforeCycleEnd s.wakeOnKey := by
  cases hk : s.input.keyDown with
  | none => simpa [State.wakeOnKey, hk] using ⟨h.memory, h.pc, h.stack, fun _ => h.clean, h.record⟩
  | some k =>
    have hpc : (s.pc + 2#16).toNat ≤ 0x10FE := (toNat_add_le_of_fetched (h.pc.2 hp) 2#16).trans (by decide)
    simpa [State.wakeOnKey, hk] using .of_ready run rfl hpc h.memory h.stack h.record

/-- An unknown opcode is recorded and passed over (R201). -/
theorem Invariant.reportUnknown (run : s.halted = false) (hp : s.phase = .ready) (hpc : s.pc.toNat ≤ 4094)
    (op : Word) : BeforeCycleEnd (s.reportUnknown op) :=
  .of_ready run hp ((toNat_add_le_of_fetched hpc 2#16).trans (by decide)) h.memory h.stack
    ⟨h.record.1, h.record.2.1, nofun⟩

/-- EXECUTE of a fetched instruction, shape by shape. -/
theorem Invariant.effect {i : Instr} {u : State} (run : s.halted = false) (hp : s.phase = .ready)
    (hpc : s.pc.toNat ≤ 4094) (he : Effect i s u) : BeforeCycleEnd u := by
  have next : (s.pc + 2#16).toNat ≤ 4096 := toNat_add_le_of_fetched hpc 2#16
  have next' : (s.pc + 2#16).toNat ≤ 0x10FE := next.trans (by decide)
  have skip (taken : Bool) : (s.pc + if taken then 4#16 else 2#16).toNat ≤ 0x10FE := by
    cases taken
    · exact next'
    · exact (toNat_add_le_of_fetched hpc 4#16).trans (by decide)
  cases he with
  | overflow | underflow | outside => exact h.raise (by decide) _ _
  | registers | index | frame | delay | sound => exact .of_ready run hp next' h.memory h.stack h.record
  | store bs inside => exact .of_ready run hp next' (Memory.wf_writeBytes h.memory bs _ inside) h.stack h.record
  | skip taken | keySkip taken => exact .of_ready run hp (skip taken) h.memory h.stack h.record
  | jump _ _ _ bound => exact .of_ready run hp bound h.memory h.stack h.record
  | call nnn room =>
    exact .of_ready run hp ((address_toNat_le nnn).trans (by decide)) h.memory (h.stackBounded_push next room) h.record
  | ret _ live => exact .of_ready run hp ((h.top_le live).trans (by decide)) h.memory h.stack h.record
  | wait x => exact ⟨h.memory, ⟨h.pc.1, fun _ => hpc⟩, h.stack, fun _ => h.clean, h.record⟩

end

/-- Reset, with whatever canonical memory a loader leaves and whatever has happened outside (R35, R240, R242). -/
theorem invariant_of_reset {m : Memory} (hm : Memory.wf m = true) (inputs : List StepInput) (draws : Nat)
    (events : List Event) :
    Invariant { State.reset with mem := m, inputs := inputs, draws := draws, events := events } where
  memory := hm
  pc := State.pcBounded_of_ready rfl (by decide : (0x200#16).toNat ≤ 0x10FE)
  stack k := by simp [State.reset]
  clean := rfl
  drained _ _ := rfl
  record := ⟨nofun, fun _ => ⟨rfl, rfl, rfl, rfl⟩, fun _ => ⟨rfl, rfl⟩⟩

/-- A boot is reset with a canonical memory (R242). -/
theorem State.boot_eq_some {font rom : List Byte} {s : State} (h : State.boot font rom = some s) :
    ∃ m, Memory.wf m = true ∧ s = State.reset.setMem m := by
  simp only [State.boot, fontWellFormed, romWellFormed, Option.ite_none_right_eq_some, Bool.and_eq_true, beq_iff_eq,
    decide_eq_true_eq, Option.some.injEq] at h
  obtain ⟨⟨(hfont : font.length = 80), (hrom : rom.length ≤ 3584)⟩, rfl⟩ := h
  have hfont' : 0x50 + font.length ≤ 4096 := by omega
  have hrom' : 0x200 + rom.length ≤ 4096 := by omega
  rw [State.loadBytes_inside font _ _ hfont', State.loadBytes_inside rom _ _ hrom']
  exact ⟨_, Memory.wf_writeBytes (Memory.wf_writeBytes reset_memory_wf _ _ hfont') _ _ hrom', rfl⟩

/-- Settles O53: each of the four things a step can do leaves what the end of the cycle turns into the invariant. -/
theorem stepKeepsTheInvariant : Obligations.StepKeepsTheInvariant := by
  intro s t h hstep
  obtain ⟨run, hcases⟩ := step_cases hstep
  obtain ⟨hp, rfl⟩ | ⟨_, _, rfl⟩ | ⟨hp, w, hf, _, rfl⟩ | ⟨hp, w, i, u, hf, _, hexec, rfl⟩ := hcases
  · exact (h.wakeOnKey run hp).endCycle
  · exact (h.raise (by decide) _ _).endCycle
  · exact (h.reportUnknown run hp (State.fetch_eq_some.1 hf).1 w).endCycle
  · exact (h.effect run hp (State.fetch_eq_some.1 hf).1 (exec_effect hexec)).endCycle

/-- Settles O52. -/
theorem resetMeetsTheInvariant : Obligations.ResetMeetsTheInvariant :=
  invariant_of_reset reset_memory_wf [] 0 []

/-- Settles O54, by induction on how the state was reached. -/
theorem reachableStatesMeetTheInvariant : Obligations.ReachableStatesMeetTheInvariant := by
  intro s hs
  induction hs with
  | atReset => exact resetMeetsTheInvariant
  | booted font rom s inputs hboot =>
    obtain ⟨m, hm, rfl⟩ := State.boot_eq_some hboot
    exact invariant_of_reset hm inputs 0 []
  | stepped s t _ hstep ih => exact stepKeepsTheInvariant s t ih hstep
  | wasReset s _ _ => exact invariant_of_reset reset_memory_wf s.inputs s.draws s.events

theorem cellAt_blankFb (x y : Nat) : cellAt blankFb x y = false := by
  by_cases hy : y < Config.fbHeight <;> simp [cellAt, blankFb, Vector.getD, Array.getD, hy]

/-- Settles O55: reset itself is a reset asserted in the reset state. -/
theorem resetLeavesTheValuesOfTheTable : Obligations.ResetLeavesTheValuesOfTheTable := by
  intro s r hr
  obtain ⟨s', rfl⟩ : ∃ s', r = State.hostReset s' := hr.elim (⟨State.reset, ·⟩) (⟨s, ·⟩)
  refine ⟨fun x => ?_, rfl, rfl, fun _ => rfl, fun k => ?_, rfl, fun i _ => cellAt_blankFb _ _,
    rfl, rfl, rfl, rfl, rfl, rfl, rfl, rfl, rfl, rfl, rfl, rfl, rfl, rfl, rfl⟩
  · simp [State.reg, State.hostReset, State.reset]
  · simp [State.hostReset, State.reset]

end Sys2Proof.Machine

/-! ## Who writes what (R21 to R32, R51, R128) -/

namespace Sys2Proof.Machine

section
variable {i : Instr} {s t : State} (h : Effect i s t)
include h

theorem Effect.reg_eq {y : Nibble} (hy : i.mayWriteReg y = false) : t.reg y = s.reg y := by
  cases h with
  | registers _ kept | frame _ _ _ kept => exact kept y hy
  | _ => rfl

theorem Effect.index_eq (h1 : ∀ n, i ≠ .setIndex n) (h2 : ∀ x, i ≠ .addToIndex x) (h3 : ∀ x, i ≠ .fontChar x) :
    t.i = s.i := by
  cases h with
  | index _ which =>
    obtain ⟨n, hi⟩ | ⟨x, hi⟩ | ⟨x, hi⟩ := which
    · exact absurd hi (h1 n)
    · exact absurd hi (h2 x)
    · exact absurd hi (h3 x)
  | _ => rfl

theorem Effect.stack_eq (hc : ∀ n, i ≠ .call n) : t.stack = s.stack := by
  cases h with
  | call nnn => exact absurd rfl (hc nnn)
  | _ => rfl

theorem Effect.sp_eq (hc : ∀ n, i ≠ .call n) (hr : ∀ g, i ≠ .ret g) : t.sp = s.sp := by
  cases h with
  | call nnn => exact absurd rfl (hc nnn)
  | ret ign => exact absurd rfl (hr ign)
  | _ => rfl

theorem Effect.frame_eq (hi : i.drawsFrame = false) : t.fb = s.fb ∧ t.dirty = s.dirty := by
  cases h with
  | frame _ _ draws => exact absurd (draws.symm.trans hi) (by decide)
  | _ => exact ⟨rfl, rfl⟩

theorem Effect.dt_eq (hi : ∀ x, i ≠ .setDelay x) : t.dt = s.dt := by
  cases h with
  | delay x => exact absurd rfl (hi x)
  | _ => rfl

theorem Effect.st_eq (hi : ∀ x, i ≠ .setSound x) : t.st = s.st := by
  cases h with
  | sound x => exact absurd rfl (hi x)
  | _ => rfl

theorem Effect.keys_eq (h1 : ∀ x, i ≠ .keyPressed x) (h2 : ∀ x, i ≠ .keyNotPressed x) : t.keys = s.keys := by
  cases h with
  | keySkip _ x which => exact (which.elim (h1 x) (h2 x)).elim
  | _ => rfl

theorem Effect.phase_eq (hi : ∀ x, i ≠ .waitForKey x) : t.phase = s.phase ∧ t.waitReg = s.waitReg := by
  cases h with
  | wait x => exact absurd rfl (hi x)
  | _ => exact ⟨rfl, rfl⟩

/-- An instruction that neither moves the stack nor accesses memory through `I` cannot fault (R110). -/
theorem Effect.record_eq (h1 : ∀ n, i ≠ .call n) (h2 : ∀ g, i ≠ .ret g) (h3 : ∀ x, i ≠ .bcd x)
    (h4 : ∀ x, i ≠ .storeRegs x) (h5 : ∀ x, i ≠ .loadRegs x) (h6 : ∀ x y n, i ≠ .draw x y n) :
    t.halted = s.halted ∧ t.errKind = s.errKind ∧ t.errPc = s.errPc ∧ t.errOp = s.errOp ∧ t.errAddr = s.errAddr ∧
      t.events = s.events := by
  cases h with
  | overflow nnn => exact absurd rfl (h1 nnn)
  | underflow ign => exact absurd rfl (h2 ign)
  | outside accesses =>
    obtain ⟨x, hi⟩ | ⟨x, hi⟩ | ⟨x, hi⟩ | ⟨x, y, n, hi⟩ := Instr.accessLength_pos accesses
    · exact absurd hi (h3 x)
    · exact absurd hi (h4 x)
    · exact absurd hi (h5 x)
    · exact absurd hi (h6 x y n)
  | _ => exact ⟨rfl, rfl, rfl, rfl, rfl, rfl⟩

/-- What EXECUTE of a known instruction never touches (R32, R33, R112). -/
theorem Effect.driver_eq : t.unkSeen = s.unkSeen ∧ t.unkPc = s.unkPc ∧ t.unkOp = s.unkOp ∧
    t.pendingTicks = s.pendingTicks ∧ t.inputs = s.inputs ∧ t.draws = s.draws := by
  cases h <;> exact ⟨rfl, rfl, rfl, rfl, rfl, rfl⟩

end

/-- Settles O44. -/
theorem onlyDestinationAndFlagRegistersChange : Obligations.OnlyDestinationAndFlagRegistersChange :=
  fun _ _ _ _ h hy => (exec_effect h).reg_eq hy

/-- Settles O46, register by register. -/
theorem eachSpecialRegisterHasItsWriters : Obligations.EachSpecialRegisterHasItsWriters := by
  intro i s t h
  have he := exec_effect h
  exact ⟨he.index_eq, fun hc => ⟨he.stack_eq hc, he.sp_eq hc⟩, he.frame_eq, he.dt_eq, he.st_eq, he.keys_eq,
    he.phase_eq, he.record_eq, he.driver_eq⟩

/-- Settles O47, shape by shape. -/
theorem pcAdvancesByTwoOrFourOrIsSet : Obligations.PcAdvancesByTwoOrFourOrIsSet := by
  intro i s t _ h
  cases exec_effect h with
  | overflow | underflow | outside => exact .inl ⟨rfl, rfl⟩
  | wait x => exact .inr (.inl ⟨x, rfl, rfl⟩)
  | jump _ nnn which => exact .inr (.inr (.inl ⟨nnn, which.imp_right .inr⟩))
  | call nnn => exact .inr (.inr (.inl ⟨nnn, .inr (.inl rfl)⟩))
  | ret ign => exact .inr (.inr (.inr (.inl ⟨ign, rfl⟩)))
  | skip taken which =>
    cases taken with
    | false => exact .inr (.inr (.inr (.inr (.inl rfl))))
    | true => exact .inr (.inr (.inr (.inr (.inr ⟨rfl, which.imp_right .inl⟩))))
  | keySkip taken x which =>
    cases taken with
    | false => exact .inr (.inr (.inr (.inr (.inl rfl))))
    | true => exact .inr (.inr (.inr (.inr (.inr ⟨rfl, .inr (.inr ⟨x, which⟩)⟩))))
  | registers | index | store | frame | delay | sound => exact .inr (.inr (.inr (.inr (.inl rfl))))

/-! ## FrameReady (R28, R107) -/

/-- The later state has emitted events since the earlier one, with these FrameReady among them. -/
def State.Reports (s t : State) (frames : List Event) : Prop :=
  ∃ es, t.events = s.events ++ es ∧ es.filter Event.isFrameReady = frames

theorem State.Reports.nil_of_eq {s t : State} (h : t.events = s.events) : s.Reports t [] :=
  ⟨[], by simp [h], rfl⟩

theorem State.reports_raise (s : State) (kind : FaultKind) (addr op : Word) : s.Reports (s.raise kind addr op) [] :=
  ⟨[.faultReport kind.code s.pc op addr], rfl, rfl⟩

theorem State.reports_reportUnknown (s : State) (op : Word) : s.Reports (s.reportUnknown op) [] :=
  ⟨[.unknownOpcodeReport s.pc op], rfl, rfl⟩

/-- A key-down writes a register, `pc` and the phase (R105). -/
theorem State.wakeOnKey_dirty_events (s : State) :
    s.wakeOnKey.dirty = s.dirty ∧ s.wakeOnKey.events = s.events := by
  unfold State.wakeOnKey
  split <;> exact ⟨rfl, rfl⟩

theorem Effect.reports {i : Instr} {s t : State} (h : Effect i s t) : s.Reports t [] := by
  cases h with
  | overflow | underflow | outside => exact State.reports_raise _ _ _ _
  | _ => exact State.Reports.nil_of_eq rfl

/-- The end of a cycle that reaches READY reports the frame exactly when it is dirty (R107). -/
theorem State.Reports.endCycle_of_ready {s u : State} (h : s.Reports u []) (hh : u.halted = false)
    (hp : u.phase = .ready) : s.Reports u.endCycle (if u.dirty then [.frameReady u.endCycle.fb] else []) := by
  obtain ⟨es, hes, hnone⟩ := h
  have hev := State.endCycle_events_of_ready hh hp
  rw [hes, List.append_assoc] at hev
  refine ⟨_, hev, ?_⟩
  rw [List.filter_append, hnone, State.endCycle_fb]
  split_ifs <;> rfl

/-- A cycle that drew nothing ends with nothing to report. -/
theorem State.Reports.endCycle_of_clean {s u : State} (h : s.Reports u []) (hd : u.dirty = false) :
    u.endCycle.dirty = false ∧ s.Reports u.endCycle [] := by
  obtain ⟨_, he⟩ | ⟨_, _, he⟩ | ⟨hh, hp, he⟩ := u.endCycle_cases
  · exact he ▸ ⟨hd, h⟩
  · exact he ▸ ⟨hd, h⟩
  · exact ⟨he ▸ rfl, by simpa [hd] using h.endCycle_of_ready hh hp⟩

/-- CLS and DRAW leave a dirty frame, and the phase as it was, unless they halt the core (R28). -/
theorem exec_dirty_of_drawsFrame {i : Instr} {s t : State} (h : exec i s = .next t) (hi : i.drawsFrame = true)
    (run : t.halted = false) : t.dirty = true ∧ t.phase = s.phase := by
  cases i with
  | cls ign =>
    obtain rfl := Host.Outcome.next.inj h
    exact ⟨rfl, rfl⟩
  | draw x y n =>
    obtain ⟨_, _, rfl⟩ | ⟨_, rfl⟩ := State.accessAtIndex_cases h
    · exact absurd run (by simp)
    · exact ⟨rfl, rfl⟩
  | _ => cases hi

/-- Nothing else marks the frame dirty, a fault of DRAW neither. -/
theorem Effect.dirty_eq {i : Instr} {s t : State} (h : Effect i s t) (run : s.halted = false)
    (hn : ¬(i.drawsFrame = true ∧ t.halted = false)) : t.dirty = s.dirty := by
  cases h with
  | frame _ _ draws => exact absurd ⟨draws, run⟩ hn
  | _ => rfl

/-- The instruction of the cycle from `s` to `t` was CLS or DRAW and did not halt the core. -/
def State.DrewFrame (s t : State) : Prop :=
  s.phase = .ready ∧ t.halted = false ∧ ∃ w i, s.fetch = some w ∧ decode w = some i ∧ i.drawsFrame = true

/-- What a step reports, in each of the four things it can do. -/
theorem step_reports {s t : State} (hd : s.dirty = false) (hstep : step s = .next t) :
    t.dirty = false ∧
      (s.DrewFrame t ∧ s.Reports t [.frameReady t.fb] ∨ ¬s.DrewFrame t ∧ s.Reports t []) := by
  have undrawn {u : State} (hn : ¬s.DrewFrame u.endCycle) (hr : s.Reports u []) (hu : u.dirty = s.dirty) :
      u.endCycle.dirty = false ∧ (s.DrewFrame u.endCycle ∧ s.Reports u.endCycle [.frameReady u.endCycle.fb] ∨
        ¬s.DrewFrame u.endCycle ∧ s.Reports u.endCycle []) :=
    (hr.endCycle_of_clean (hu.trans hd)).imp_right fun h => .inr ⟨hn, h⟩
  obtain ⟨run, hcases⟩ := step_cases hstep
  obtain ⟨hp, rfl⟩ | ⟨_, _, rfl⟩ | ⟨_, w, hf, hdec, rfl⟩ | ⟨hp, w, i, u, hf, hdec, hexec, rfl⟩ := hcases
  · obtain ⟨hdirty, hevents⟩ := s.wakeOnKey_dirty_events
    exact undrawn (by simp [State.DrewFrame, hp]) (.nil_of_eq hevents) hdirty
  · exact undrawn (by simp [State.DrewFrame, State.raiseFetch]) (s.reports_raise _ _ _) rfl
  · exact undrawn (by simp [State.DrewFrame, hf, hdec]) (s.reports_reportUnknown w) rfl
  · have he := exec_effect hexec
    have hiff : s.DrewFrame u.endCycle ↔ i.drawsFrame = true ∧ u.halted = false := by
      simp [State.DrewFrame, hp, hf, hdec, and_comm]
    by_cases hdraw : i.drawsFrame = true ∧ u.halted = false
    · obtain ⟨hdirty, hphase⟩ := exec_dirty_of_drawsFrame hexec hdraw.1 hdraw.2
      have hready := hphase.trans hp
      refine ⟨by rw [State.endCycle_of_ready hdraw.2 hready]; rfl, .inl ⟨hiff.2 hdraw, ?_⟩⟩
      simpa [hdirty] using he.reports.endCycle_of_ready hdraw.2 hready
    · exact undrawn (mt hiff.1 hdraw) he.reports (he.dirty_eq run hdraw)

/-- Settles O50. -/
theorem frameReadyOnceForEachDirtyCycle : Obligations.FrameReadyOnceForEachDirtyCycle := by
  intro s t hd hstep
  obtain ⟨hclean, ⟨hdrew, es, hes, hf⟩ | ⟨hn, es, hes, hf⟩⟩ := step_reports hd hstep
  · exact ⟨hclean, es, hes, fun _ => hf, fun hn => absurd hdrew hn⟩
  · exact ⟨hclean, es, hes, fun hdrew => absurd hdrew hn, fun _ => hf⟩

end Sys2Proof.Machine

/-! ## Memory (R51, R55, R62) -/

namespace Sys2Proof.Machine

/-- A byte the instruction does not store to reads as before (R51). -/
theorem Effect.byte_eq {i : Instr} {s t : State} (h : Effect i s t) {a : Nat} (ha : i.storesAt s a = false) :
    t.byte a = s.byte a := by
  cases h with
  | store bs _ stored =>
    have hout : ¬(s.i.toNat ≤ a ∧ a < s.i.toNat + bs.length) := fun hin => Bool.eq_false_iff.1 ha ((stored a).2 hin)
    exact Memory.get_writeBytes_outside bs s.mem s.i.toNat a (by omega)
  | _ => rfl

/-- What halts the core stores nothing (R55, R110). -/
theorem Effect.mem_eq_of_halted_ne {i : Instr} {s t : State} (h : Effect i s t) (hne : t.halted ≠ s.halted) :
    t.mem = s.mem := by
  cases h with
  | store => exact absurd rfl hne
  | _ => rfl

/-- Settles O45: an instruction that stores does so within the addresses given, and it does not halt. -/
theorem onlyBcdAndStoreRegsChangeMemory : Obligations.OnlyBcdAndStoreRegsChangeMemory := by
  intro i s t a h hcases
  obtain ha | hne := hcases
  · exact (exec_effect h).byte_eq ha
  · exact congrArg (Memory.get · a) ((exec_effect h).mem_eq_of_halted_ne hne)

/-- In range, STORE_REGS puts `V[r]` at `I + r` (R164). -/
theorem exec_storeRegs_byte {x r : Nibble} {s t : State} (hm : Memory.wf s.mem = true)
    (hin : s.i.toNat + x.toNat ≤ 4095) (h : exec (.storeRegs x) s = .next t) (hr : r.toNat ≤ x.toNat) :
    t.byte (s.i.toNat + r.toNat) = s.reg r := by
  obtain ⟨_, hout, _⟩ | ⟨_, rfl⟩ := State.accessAtIndex_cases h
  · simp only [Config.memorySize] at hout
    omega
  · have hlen : r.toNat < (s.regsUpTo x).length := by
      rw [State.length_regsUpTo]
      omega
    have hfit : s.i.toNat + (s.regsUpTo x).length ≤ Config.memorySize := by
      rw [State.length_regsUpTo, Config.memorySize]
      omega
    exact (Memory.get_writeBytes_inside hm _ _ _ hfit hlen).trans (s.getElem_regsUpTo x _ hlen r.isLt)

/-- The next register has the next number when there is one. -/
theorem nibble_toNat_add_one {r x : Nibble} (h : r.toNat + 1 ≤ x.toNat) : (r + 1#4).toNat = r.toNat + 1 := by
  rw [BitVec.toNat_add_of_lt (by simpa using h.trans_lt x.isLt)]
  rfl

/-- Settles O35: FETCH reads two stored bytes, one after the other. -/
theorem aStoreIsSeenByTheNextFetch : Obligations.AStoreIsSeenByTheNextFetch := by
  intro x r s t u hm hin h hmem hr hpc
  have hnext := nibble_toNat_add_one hr
  have high : u.byte u.pc.toNat = s.reg r := by
    rw [State.byte, hmem, hpc]
    exact exec_storeRegs_byte hm hin h (by omega)
  have low : u.byte (u.pc.toNat + 1) = s.reg (r + 1#4) := by
    rw [State.byte, hmem, hpc, Nat.add_assoc, ← hnext]
    exact exec_storeRegs_byte hm hin h (by omega)
  exact State.fetch_eq_some.2 ⟨by omega, by rw [high, low]; rfl⟩

end Sys2Proof.Machine

/-! # The encoding (30_encoding) and progress

`decode_cases` says once what the top nibble selects; `encode_of_decode` and the unknown words are read off it. The rows
of the opcode table are compared with the decoder through the fields a mask keeps. -/

namespace Sys2Proof

/-! ## A word with given fields is a packed word -/

section
variable {w : Word} {g n : Nibble} {nn : Byte}

theorem packA_of_group (hg : fieldG w = g) : packA g (fieldNNN w) = w := hg ▸ packA_fields w

theorem packXK_of_group (hg : fieldG w = g) : packXK g (fieldX w) (fieldNN w) = w := hg ▸ packXK_fields w

theorem packXY_of_group (hg : fieldG w = g) : packXY g (fieldX w) (fieldY w) (fieldN w) = w := hg ▸ packXY_fields w

theorem packZ_of_selector (hg : fieldG w = g) (hn : (fieldN w).toNat = n.toNat) : packZ g (fieldIgn w) n = w :=
  BitVec.eq_of_toNat_eq hn ▸ hg ▸ packZ_fields w

theorem packXY_of_selector (hg : fieldG w = g) (hn : (fieldN w).toNat = n.toNat) :
    packXY g (fieldX w) (fieldY w) n = w := BitVec.eq_of_toNat_eq hn ▸ packXY_of_group hg

theorem packXK_of_selector (hg : fieldG w = g) (hn : fieldNN w = nn) : packXK g (fieldX w) nn = w :=
  hn ▸ packXK_of_group hg

end

/-! ## The groups with a selector (R75 to R78) -/

section
variable {w : Word} {i : Instr}

theorem encode_of_decode0 (hg : fieldG w = 0x0#4) (h : decode0 w = some i) : encode i = w := by
  unfold decode0 at h
  split at h <;> cases h <;> exact packZ_of_selector hg ‹_›

theorem encode_of_decode8 (hg : fieldG w = 0x8#4) (h : decode8 w = some i) : encode i = w := by
  unfold decode8 at h
  split at h <;> cases h <;> exact packXY_of_selector hg ‹_›

theorem encode_of_decodeE (hg : fieldG w = 0xE#4) (h : decodeE w = some i) : encode i = w := by
  unfold decodeE at h
  split_ifs at h <;> cases h <;> exact packXK_of_selector hg ‹_›

theorem encode_of_decodeF (hg : fieldG w = 0xF#4) (h : decodeF w = some i) : encode i = w := by
  unfold decodeF at h
  split_ifs at h <;> cases h <;> exact packXK_of_selector hg ‹_›

theorem decode0_eq_none : decode0 w = none ↔ fieldN w ≠ 0x0#4 ∧ fieldN w ≠ 0xE#4 := by
  unfold decode0
  split <;> simp_all [← BitVec.toNat_inj]

theorem decode8_eq_none : decode8 w = none ↔ 8#4 ≤ fieldN w ∧ fieldN w ≤ 0xD#4 ∨ fieldN w = 0xF#4 := by
  have := (fieldN w).isLt
  unfold decode8
  split <;> simp_all [← BitVec.toNat_inj, BitVec.le_def]
  omega

theorem decodeE_eq_none : decodeE w = none ↔ fieldNN w ∉ [0x9E#8, 0xA1#8] := by
  unfold decodeE
  split_ifs <;> simp [*]

theorem decodeF_eq_none : decodeF w = none ↔
    fieldNN w ∉ [0x07#8, 0x0A#8, 0x15#8, 0x18#8, 0x1E#8, 0x29#8, 0x33#8, 0x55#8, 0x65#8] := by
  unfold decodeF
  split_ifs <;> simp [*]

end

/-! ## What the top nibble selects (R74) -/

/-- The other twelve groups hold one instruction each. Arm `k` of `decode`'s match is group `k - 1`. -/
theorem decode_of_one_instruction_group {w : Word}
    (hg : fieldG w ≠ 0x0#4 ∧ fieldG w ≠ 0x8#4 ∧ fieldG w ≠ 0xE#4 ∧ fieldG w ≠ 0xF#4) :
    ∃ i, decode w = some i ∧ encode i = w := by
  unfold decode
  split
  case h_2 | h_3 | h_11 | h_12 => exact ⟨_, rfl, packA_of_group (BitVec.eq_of_toNat_eq ‹_›)⟩
  case h_4 | h_5 | h_7 | h_8 | h_13 => exact ⟨_, rfl, packXK_of_group (BitVec.eq_of_toNat_eq ‹_›)⟩
  case h_6 | h_10 | h_14 => exact ⟨_, rfl, packXY_of_group (BitVec.eq_of_toNat_eq ‹_›)⟩
  case h_1 | h_9 | h_15 | h_16 => simp_all [← BitVec.toNat_inj]
  case h_17 =>
    have := (fieldG w).isLt
    grind

/-- Everything DECODE can do, by the top nibble. -/
theorem decode_cases (w : Word) :
    fieldG w = 0x0#4 ∧ decode w = decode0 w ∨ fieldG w = 0x8#4 ∧ decode w = decode8 w ∨
    fieldG w = 0xE#4 ∧ decode w = decodeE w ∨ fieldG w = 0xF#4 ∧ decode w = decodeF w ∨
    (fieldG w ≠ 0x0#4 ∧ fieldG w ≠ 0x8#4 ∧ fieldG w ≠ 0xE#4 ∧ fieldG w ≠ 0xF#4) ∧
      ∃ i, decode w = some i ∧ encode i = w := by
  by_cases h0 : fieldG w = 0x0#4
  · exact .inl ⟨h0, by simp [decode, h0]⟩
  by_cases h8 : fieldG w = 0x8#4
  · exact .inr (.inl ⟨h8, by simp [decode, h8]⟩)
  by_cases hE : fieldG w = 0xE#4
  · exact .inr (.inr (.inl ⟨hE, by simp [decode, hE]⟩))
  by_cases hF : fieldG w = 0xF#4
  · exact .inr (.inr (.inr (.inl ⟨hF, by simp [decode, hF]⟩)))
  have hg := And.intro h0 (And.intro h8 (And.intro hE hF))
  exact .inr (.inr (.inr (.inr ⟨hg, decode_of_one_instruction_group hg⟩)))

theorem encode_of_decode {w : Word} {i : Instr} (h : decode w = some i) : encode i = w := by
  obtain ⟨hg, hd⟩ | ⟨hg, hd⟩ | ⟨hg, hd⟩ | ⟨hg, hd⟩ | ⟨_, j, hd, hw⟩ := decode_cases w
  · exact encode_of_decode0 hg (hd ▸ h)
  · exact encode_of_decode8 hg (hd ▸ h)
  · exact encode_of_decodeE hg (hd ▸ h)
  · exact encode_of_decodeF hg (hd ▸ h)
  · cases hd.symm.trans h
    exact hw

/-! ## Decoding the word of an instruction -/

/-- Group by group: the decoder reads the group and the selector that the format packs, and then the operands. -/
theorem decode_encode (i : Instr) : decode (encode i) = some i := by
  cases i with
  | cls | ret => simp [encode, decode, decode0]
  | setReg | orReg | andReg | xorReg | addReg | sub | shiftRight | subn | shiftLeft => simp [encode, decode, decode8]
  | keyPressed | keyNotPressed => simp [encode, decode, decodeE]
  | getTimer | waitForKey | setDelay | setSound | addToIndex | fontChar | bcd | storeRegs | loadRegs =>
    simp [encode, decode, decodeF]
  | jump | call | skipEqConst | skipNeqConst | skipEqReg | setConst | addConst | skipNeqReg | setIndex | jumpOffset
  | rand | draw => simp [encode, decode]

theorem decodeBytes_encodeBytes (i : Instr) (rest : List Byte) :
    decodeBytes (encodeBytes i ++ rest) = .ok (i, rest) := by
  simp [encodeBytes, decodeBytes, decode_encode]

/-- A word is its own table word (R6). -/
theorem tableWord_toNat (w : Word) : tableWord 16 w.toNat = w := by
  rw [tableWord, Nat.mod_eq_of_lt w.isLt, BitVec.ofNat_toNat, BitVec.setWidth_eq]

theorem decodeTableWord_encode (i : Instr) : decodeTableWord 16 (encode i).toNat = some i := by
  have hbytes := decodeBytes_encodeBytes i []
  simp only [encodeBytes, List.append_nil] at hbytes
  simp only [decodeTableWord, tableWord_toNat, hbytes]

/-- Settles O2. -/
theorem decodeOfEncodeIsTheInstruction : Obligations.DecodeOfEncodeIsTheInstruction :=
  fun i => ⟨decode_encode i, decodeTableWord_encode i, decodeBytes_encodeBytes i []⟩

/-- Settles O3. -/
theorem encodeOfDecodeIsTheWord : Obligations.EncodeOfDecodeIsTheWord := fun _ _ => encode_of_decode

/-- Settles O5: only the four groups with a selector have free words. -/
theorem unknownWordsAreExactlyThese : Obligations.UnknownWordsAreExactlyThese := by
  intro w
  rw [← decode0_eq_none, ← decode8_eq_none, ← decodeE_eq_none, ← decodeF_eq_none]
  obtain ⟨hg, hd⟩ | ⟨hg, hd⟩ | ⟨hg, hd⟩ | ⟨hg, hd⟩ | ⟨hg, i, hd, _⟩ := decode_cases w <;> simp [hg, hd]

/-! ## The fields a mask keeps -/

theorem fieldG_mask_group (w : Word) : fieldG (w &&& 0xF000#16) = fieldG w := by
  rw [← packA_fields w, mask_group_packA, fieldG_packA, fieldG_packA]

theorem fieldG_mask_selector (w : Word) : fieldG (w &&& 0xF00F#16) = fieldG w := by
  rw [← packZ_fields w, mask_selector_packZ, fieldG_packZ, fieldG_packZ]

theorem fieldN_mask_selector (w : Word) : fieldN (w &&& 0xF00F#16) = fieldN w := by
  rw [← packZ_fields w, mask_selector_packZ, fieldN_packZ, fieldN_packZ]

theorem fieldG_mask_lowByte (w : Word) : fieldG (w &&& 0xF0FF#16) = fieldG w := by
  rw [← packXK_fields w, mask_selector_packXK, fieldG_packXK, fieldG_packXK]

theorem fieldNN_mask_lowByte (w : Word) : fieldNN (w &&& 0xF0FF#16) = fieldNN w := by
  rw [← packXK_fields w, mask_selector_packXK, fieldNN_packXK, fieldNN_packXK]

section
variable {w u : Word}

theorem group_eq_of_mask (h : w &&& 0xF000#16 = u &&& 0xF000#16) : fieldG w = fieldG u := by
  rw [← fieldG_mask_group w, h, fieldG_mask_group]

theorem group_selector_eq_of_mask (h : w &&& 0xF00F#16 = u &&& 0xF00F#16) :
    fieldG w = fieldG u ∧ fieldN w = fieldN u := by
  rw [← fieldG_mask_selector w, ← fieldN_mask_selector w, h, fieldG_mask_selector, fieldN_mask_selector]
  exact ⟨rfl, rfl⟩

theorem group_lowByte_eq_of_mask (h : w &&& 0xF0FF#16 = u &&& 0xF0FF#16) :
    fieldG w = fieldG u ∧ fieldNN w = fieldNN u := by
  rw [← fieldG_mask_lowByte w, ← fieldNN_mask_lowByte w, h, fieldG_mask_lowByte, fieldNN_mask_lowByte]
  exact ⟨rfl, rfl⟩

end

/-! ## The rows of the opcode table (R74 to R79, R84) -/

open Laws.TableRow in
/-- The family TableRow as one lemma. -/
theorem encode_matches_row (i : Instr) : Statement i :=
  i.casesOn cls ret jump call skipEqConst skipNeqConst skipEqReg setConst addConst setReg orReg andReg xorReg addReg sub
    shiftRight subn shiftLeft skipNeqReg setIndex jumpOffset rand draw keyPressed keyNotPressed getTimer waitForKey
    setDelay setSound addToIndex fontChar bcd storeRegs loadRegs

/-- A word with the group and the selector of an instruction's word decodes to an instruction of its row. -/
theorem decode_of_mask_eq {w : Word} {i : Instr} (h : w &&& i.row.mask = encode i &&& i.row.mask) :
    ∃ j, decode w = some j ∧ j.row = i.row := by
  cases i with
  | cls | ret =>
    obtain ⟨hg, hn⟩ := group_selector_eq_of_mask h
    simp [decode, decode0, hg, hn, encode, Instr.row]
  | setReg | orReg | andReg | xorReg | addReg | sub | shiftRight | subn | shiftLeft =>
    obtain ⟨hg, hn⟩ := group_selector_eq_of_mask h
    simp [decode, decode8, hg, hn, encode, Instr.row]
  | keyPressed | keyNotPressed =>
    obtain ⟨hg, hnn⟩ := group_lowByte_eq_of_mask h
    simp [decode, decodeE, hg, hnn, encode, Instr.row]
  | getTimer | waitForKey | setDelay | setSound | addToIndex | fontChar | bcd | storeRegs | loadRegs =>
    obtain ⟨hg, hnn⟩ := group_lowByte_eq_of_mask h
    simp [decode, decodeF, hg, hnn, encode, Instr.row]
  | jump | call | skipEqConst | skipNeqConst | skipEqReg | setConst | addConst | skipNeqReg | setIndex | jumpOffset
  | rand | draw =>
    have hg := group_eq_of_mask h
    simp [decode, hg, encode, Instr.row]

/-- The lead paragraph of 30_encoding, for the row of an instruction. -/
theorem matches_row_iff {w : Word} {i : Instr} :
    w &&& i.row.mask = i.row.pattern ↔ ∃ j, decode w = some j ∧ j.row = i.row := by
  constructor
  · exact fun h => decode_of_mask_eq (h.trans (encode_matches_row i).1.symm)
  · rintro ⟨j, hj, hrow⟩
    rw [← hrow, ← encode_of_decode hj]
    exact (encode_matches_row j).1

theorem exists_instr_of_mem_opcodeTable {row : OpcodeRow} (h : row ∈ opcodeTable) : ∃ i : Instr, i.row = row := by
  simp only [opcodeTable, ← List.map_append, List.mem_map] at h
  obtain ⟨i, _, hi⟩ := h
  exact ⟨i, hi⟩

/-- Settles O4: a word decodes to one instruction, which has one row. -/
theorem wordDecodesToARowExactlyWhenItMatches : Obligations.WordDecodesToARowExactlyWhenItMatches := by
  refine ⟨rfl, fun w row hrow => ?_, fun w r r' hr hr' h h' => ?_⟩
  · obtain ⟨i, rfl⟩ := exists_instr_of_mem_opcodeTable hrow
    exact matches_row_iff
  · obtain ⟨i, rfl⟩ := exists_instr_of_mem_opcodeTable hr
    obtain ⟨i', rfl⟩ := exists_instr_of_mem_opcodeTable hr'
    obtain ⟨j, hj, hrow⟩ := matches_row_iff.1 h
    obtain ⟨j', hj', hrow'⟩ := matches_row_iff.1 h'
    cases hj.symm.trans hj'
    exact hrow.symm.trans hrow'

/-- Settles O1, by running the decoder on the twelve words. -/
theorem wordsOfTheSpecDecode : Obligations.WordsOfTheSpecDecode := by
  unfold Obligations.WordsOfTheSpecDecode
  decide

end Sys2Proof

namespace Sys2Proof.Machine

/-! ## Progress (R81, R100, R200) -/

/-- EXECUTE always answers a next state: a fatal fault is one too (R206), and no arm is refused. -/
theorem exec_answers (i : Instr) (s : State) : ∃ t, exec i s = .next t := by
  cases i <;> exact ⟨_, rfl⟩

theorem cycle_answers (s : State) : ∃ t, cycle s = .next t := by
  unfold cycle
  cases s.fetch with
  | none => exact ⟨_, rfl⟩
  | some w =>
    cases hd : decode w with
    | none => simp [hd]
    | some i =>
      obtain ⟨t, ht⟩ := exec_answers i s
      simp [hd, ht, endResult]

/-- Settles O12. -/
theorem everyStepAnswersUnlessHalted : Obligations.EveryStepAnswersUnlessHalted := by
  intro s
  refine ⟨fun run => ?_, step_halted⟩
  cases hp : s.phase with
  | waitKey => exact ⟨_, step_waiting run hp⟩
  | ready => exact step_ready run hp ▸ cycle_answers s

end Sys2Proof.Machine

/-! # The cycle (40_cycle)

One equation for each way a step can go, the end of a cycle as one record, and `TimerTick()` repeated as one record; the
statements about single steps are read off these. That time reaches the rest only through GET_TIMER is a relation
between two runs, kept by every shared operation. -/

namespace Sys2Proof.Machine

/-! ## The ways a step goes (R100 to R105) -/

section
variable {s : State} (run : s.halted = false)
include run

/-- R102, R103. -/
theorem step_of_decoded {w : Word} {i : Instr} (hp : s.phase = .ready) (hf : s.fetch = some w)
    (hd : decode w = some i) : step s = endResult (exec i s) := by
  simp only [step_ready run hp, cycle, hf, hd]

/-- R104. -/
theorem step_of_unknown {w : Word} (hp : s.phase = .ready) (hf : s.fetch = some w) (hd : decode w = none) :
    step s = .next (s.reportUnknown w).endCycle := by
  simp only [step_ready run hp, cycle, hf, hd]

/-- R101. -/
theorem step_of_unfetched (hp : s.phase = .ready) (hf : s.fetch = none) : step s = .next s.raiseFetch.endCycle := by
  simp only [step_ready run hp, cycle, hf]

end

@[simp] theorem State.raiseFetch_halted (s : State) : s.raiseFetch.halted = true := rfl

theorem State.wakeOnKey_of_none {s : State} (hk : s.input.keyDown = none) : s.wakeOnKey = s := by
  simp only [State.wakeOnKey, hk]

theorem State.wakeOnKey_of_some {s : State} {k : Nibble} (hk : s.input.keyDown = some k) : s.wakeOnKey = s.wake k := by
  simp only [State.wakeOnKey, hk]

/-- FETCH, with the word as R52 computes it. -/
theorem State.fetch_eq_ofNat {s : State} (hpc : s.pc.toNat ≤ 4094) :
    s.fetch = some (BitVec.ofNat 16 ((s.byte s.pc.toNat).toNat * 256 + (s.byte (s.pc.toNat + 1)).toNat)) :=
  State.fetch_eq_some.2 ⟨hpc, wordOfBytes_eq_ofNat _ _⟩

/-- Settles O6. -/
theorem stepRunsTheDecodedInstruction : Obligations.StepRunsTheDecodedInstruction := by
  intro s i run hp hpc hd
  rw [step_of_decoded run hp (State.fetch_eq_ofNat hpc) hd]
  cases exec i s <;> rfl

/-- Settles O10. -/
theorem unknownOpcodeIsARecordedNoOp : Obligations.UnknownOpcodeIsARecordedNoOp := by
  rintro s _ run hp hpc rfl hd
  exact step_of_unknown run hp (State.fetch_eq_ofNat hpc) hd

/-- Settles O11. -/
theorem fetchOutsideMemoryHalts : Obligations.FetchOutsideMemoryHalts := by
  intro s run hp hpc
  rw [step_of_unfetched run hp (State.fetch_eq_none.2 hpc), State.endCycle_of_halted s.raiseFetch_halted]
  rfl

/-- Settles O13. -/
theorem waitHoldsUntilAKeyGoesDown : Obligations.WaitHoldsUntilAKeyGoesDown := by
  intro s run hp hk
  rw [step_waiting run hp, State.wakeOnKey_of_none hk, State.endCycle_of_waiting run hp]
  rfl

/-! ## The end of a cycle (R106, R107) -/

/-- Settles O7. -/
theorem endOfCycleDrainsTicksAndReportsTheFrame : Obligations.EndOfCycleDrainsTicksAndReportsTheFrame := by
  intro s
  refine ⟨State.endCycle_of_halted, State.endCycle_of_waiting, fun run hp => ?_⟩
  have hev := State.endCycle_events_of_ready run hp
  simp only [beepsWithin_eq, decide_eq_true_eq] at hev
  rw [List.append_assoc, ← hev, ← countDown_eq, ← countDown_eq, State.endCycle_of_ready run hp]
  rfl

/-- A timer at the end of a cycle, as a number: down by the ticks, clamped at 0 (R211). -/
theorem toNat_ofNat_timer_sub (timer : Byte) (ticks : Nat) :
    (BitVec.ofNat 8 (timer.toNat - ticks)).toNat = timer.toNat - ticks := by
  have := timer.isLt
  rw [BitVec.toNat_ofNat, Nat.mod_eq_of_lt (by omega)]

/-- Settles O14: a key-down takes the core to READY, and the cycle ends as any other. -/
theorem keyDownEndsTheWait : Obligations.KeyDownEndsTheWait := by
  intro s k run hp hk
  obtain ⟨_, _, hready⟩ := endOfCycleDrainsTicksAndReportsTheFrame (s.wake k)
  refine ⟨_, by rw [step_waiting run hp, State.wakeOnKey_of_some hk, hready run rfl], ?_, fun y hy => ?_,
    rfl, rfl, rfl, toNat_ofNat_timer_sub _ _, toNat_ofNat_timer_sub _ _, rfl, rfl⟩
  · have hreg : (s.wake k).reg s.waitReg = k.setWidth 8 := s.reg_setReg_same s.waitReg _
    exact (congrArg BitVec.toNat hreg).trans (BitVec.toNat_setWidth_of_le (by decide))
  · exact s.reg_setReg_other _ hy

/-! ## TIMER_TICK, one tick at a time (R106, R211) -/

theorem countDown_toNat (timer : Byte) (ticks : Nat) : (countDown timer ticks).toNat = timer.toNat - ticks := by
  rw [countDown_eq, toNat_ofNat_timer_sub]

theorem countDown_add (timer : Byte) (j k : Nat) : countDown (countDown timer j) k = countDown timer (j + k) := by
  apply BitVec.eq_of_toNat_eq
  simp only [countDown_toNat, Nat.sub_sub]

theorem countDown_zero (timer : Byte) : countDown timer 0 = timer := BitVec.eq_of_toNat_eq (countDown_toNat timer 0)

theorem countDown_one (timer : Byte) : countDown timer 1 = if timer = 0#8 then timer else timer - 1#8 := by
  apply BitVec.eq_of_toNat_eq
  rw [countDown_toNat]
  split_ifs <;> bv_omega

/-- The beeps of `k` ticks (R212). -/
def beeps (timer : Byte) (k : Nat) : List Event := if beepsWithin timer k then [.beep] else []

theorem beeps_eq (timer : Byte) (k : Nat) :
    beeps timer k = if 0 < timer.toNat ∧ timer.toNat ≤ k then [.beep] else [] := by
  simp only [beeps, beepsWithin_eq, decide_eq_true_eq]

/-- The beep falls in at most one of two runs of ticks. -/
theorem beeps_append (timer : Byte) (j k : Nat) :
    beeps timer j ++ beeps (countDown timer j) k = beeps timer (j + k) := by
  simp only [beeps_eq, countDown_toNat]
  by_cases hj : 0 < timer.toNat ∧ timer.toNat ≤ j
  · rw [if_pos hj, if_neg (by omega), if_pos (by omega), List.append_nil]
  · rw [if_neg hj, List.nil_append]
    exact if_congr (by omega) rfl rfl

theorem beeps_zero (timer : Byte) : beeps timer 0 = [] := by
  rw [beeps_eq, if_neg (by omega)]

theorem beeps_one (timer : Byte) :
    beeps timer 1 = if timer ≠ 0#8 ∧ timer - 1#8 = 0#8 then [.beep] else [] := by
  rw [beeps_eq]
  exact if_congr (by bv_omega) rfl rfl

/-- What `k` ticks do to the timers and the event log, whatever is pending. -/
def State.afterTicks (s : State) (k : Nat) : State :=
  { s with dt := countDown s.dt k, st := countDown s.st k, events := s.events ++ beeps s.st k }

theorem State.timerTick_eq_afterTicks (s : State) :
    s.timerTick = { s.afterTicks s.pendingTicks with pendingTicks := 0 } := by
  unfold State.timerTick State.afterTicks beeps
  split_ifs <;> simp

theorem State.afterTicks_zero (s : State) : s.afterTicks 0 = s := by
  simp [State.afterTicks, countDown_zero, beeps_zero]

theorem State.afterTicks_add (s : State) (j k : Nat) : (s.afterTicks j).afterTicks k = s.afterTicks (j + k) := by
  simp only [State.afterTicks, countDown_add, List.append_assoc, beeps_append]

/-- `TimerTick()` as R211 writes it is one tick: the delay timer first, then the sound timer with its beep. -/
theorem State.tick_eq_afterTicks (s : State) : s.tick = s.afterTicks 1 := by
  have hdt : (if s.dt = 0#8 then s else { s with dt := s.dt - 1#8 }) = { s with dt := countDown s.dt 1 } := by
    rw [countDown_one]
    split_ifs <;> rfl
  simp only [State.tick, hdt, State.afterTicks, countDown_one s.st, beeps_one]
  by_cases h0 : s.st = 0#8
  · simp [h0]
  · by_cases h1 : s.st - 1#8 = 0#8 <;> simp [h0, h1, State.emit]

theorem State.tickTimes_eq_afterTicks (k : Nat) (s : State) : State.tickTimes k s = s.afterTicks k := by
  induction k generalizing s with
  | zero => exact s.afterTicks_zero.symm
  | succ k ih => rw [State.tickTimes, ih, State.tick_eq_afterTicks, State.afterTicks_add, Nat.add_comm]

/-- Settles O8. -/
theorem drainingIsOneTickAtATime : Obligations.DrainingIsOneTickAtATime := by
  intro s
  rw [State.timerTick_eq_afterTicks, State.tickTimes_eq_afterTicks]

/-! ## Fatal faults (R108, R110) -/

/-- Settles O48: of the shapes of an EXECUTE three halt. -/
theorem faultsArePreciseAndOfTheirInstruction : Obligations.FaultsArePreciseAndOfTheirInstruction := by
  intro i s t run h halted
  cases exec_effect h with
  | overflow nnn full => exact .inl ⟨nnn, rfl, full, rfl⟩
  | underflow ign empty => exact .inr (.inl ⟨ign, rfl, empty, rfl⟩)
  | outside accesses beyond =>
    refine .inr (.inr ⟨?_, rfl⟩)
    obtain ⟨x, rfl⟩ | ⟨x, rfl⟩ | ⟨x, rfl⟩ | ⟨x, y, n, rfl⟩ := Instr.accessLength_pos accesses <;>
      simp only [Instr.accessLength, Config.memorySize] at accesses beyond
    · exact .inl ⟨x, rfl, by omega⟩
    · exact .inr (.inl ⟨x, .inl rfl, by omega⟩)
    · exact .inr (.inl ⟨x, .inr rfl, by omega⟩)
    · exact .inr (.inr ⟨x, y, n, rfl, accesses, by omega⟩)
  | _ => exact absurd (run.symm.trans halted) (by decide)

/-- A halting EXECUTE of any instruction writes the record and nothing else (R110, R206). -/
theorem exec_eq_faulted_of_halts {i : Instr} {s t : State} (run : s.halted = false) (h : exec i s = .next t)
    (halted : t.halted = true) : ∃ kind addr, kind ∈ [2#3, 3#3, 4#3] ∧ t = s.faulted kind addr (encode i) := by
  obtain ⟨_, _, _, ht⟩ | ⟨_, _, _, ht⟩ | ⟨_, ht⟩ := faultsArePreciseAndOfTheirInstruction i s t run h halted <;>
    exact ⟨_, _, by decide, ht⟩

theorem State.wakeOnKey_halted (s : State) : s.wakeOnKey.halted = s.halted := by
  unfold State.wakeOnKey
  split <;> rfl

/-- Settles O49: only FETCH and EXECUTE halt, and the end of the cycle then counts the ticks and no more. -/
theorem haltingStepChangesOnlyTheRecord : Obligations.HaltingStepChangesOnlyTheRecord := by
  intro s t hstep halted
  obtain ⟨run, hcases⟩ := step_cases hstep
  have running {u : State} (hu : u.endCycle.halted = true) (he : u.halted = s.halted) : False :=
    Bool.false_ne_true (run.symm.trans (he.symm.trans (u.endCycle_halted ▸ hu)))
  obtain ⟨_, rfl⟩ | ⟨_, hf, rfl⟩ | ⟨_, w, _, _, rfl⟩ | ⟨_, w, i, u, hf, hd, hexec, rfl⟩ := hcases
  · exact (running halted s.wakeOnKey_halted).elim
  · rw [State.endCycle_of_halted s.raiseFetch_halted]
    exact ⟨4#3, lowestOutside s.pc, 0#16, .inr ⟨hf, rfl⟩, by decide, rfl⟩
  · exact (running halted (s.reportUnknown_halted w)).elim
  · rw [State.endCycle_halted] at halted
    obtain ⟨kind, addr, hkind, rfl⟩ := exec_eq_faulted_of_halts run hexec halted
    rw [State.endCycle_of_halted halted]
    exact ⟨kind, addr, encode i, .inl (encode_of_decode hd ▸ hf), hkind, rfl⟩

/-! ## CALL and RETURN, by what the stack holds (R120, R122) -/

theorem exec_ret_of_live (ign : BitVec 8) {s : State} (live : 0 < s.sp.val) :
    exec (.ret ign) s = .next (s.dropTop.setPc (s.top live)) := congrArg _ (dif_pos live)

theorem exec_ret_of_empty (ign : BitVec 8) {s : State} (empty : ¬0 < s.sp.val) :
    exec (.ret ign) s = .next (s.raise .stackUnderflow 0#16 (encode (.ret ign))) := congrArg _ (dif_neg empty)

theorem exec_call_of_room (nnn : Addr12) {s : State} (room : s.sp.val < Config.stackCapacity) :
    exec (.call nnn) s = .next ((s.push (s.pc + 2#16) room).setPc (address nnn)) := congrArg _ (dif_pos room)

theorem exec_call_of_full (nnn : Addr12) {s : State} (full : ¬s.sp.val < Config.stackCapacity) :
    exec (.call nnn) s = .next (s.raise .stackOverflow 0#16 (encode (.call nnn))) := congrArg _ (dif_neg full)

/-! ## Time reaches the rest only through GET_TIMER (R113) -/

/-- The part of a state in which `sameButTime` lets two states differ. -/
structure TimePart where
  dt : Byte
  st : Byte
  pendingTicks : Nat
  events : List Event
  inputs : List StepInput
  draws : Nat

def State.withTime (s : State) (c : TimePart) : State :=
  { s with dt := c.dt, st := c.st, pendingTicks := c.pendingTicks, events := c.events, inputs := c.inputs,
           draws := c.draws }

theorem sameButTime_iff {s t : State} : sameButTime s t ↔ ∃ c, t = s.withTime c :=
  ⟨fun h => ⟨⟨t.dt, t.st, t.pendingTicks, t.events, t.inputs, t.draws⟩, h⟩, by rintro ⟨c, rfl⟩; rfl⟩

/-- Both answer next states that differ in nothing but time. -/
def SameAnswerButTime (r r' : Result) : Prop := ∃ s t, r = .next s ∧ r' = .next t ∧ sameButTime s t

section
variable {s t : State} (h : sameButTime s t)
include h

theorem sameButTime.raise (kind : FaultKind) (addr op : Word) :
    sameButTime (s.raise kind addr op) (t.raise kind addr op) := by
  obtain ⟨c, rfl⟩ := sameButTime_iff.1 h
  rfl

theorem sameButTime.raiseFetch : sameButTime s.raiseFetch t.raiseFetch := by
  obtain ⟨c, rfl⟩ := sameButTime_iff.1 h
  rfl

theorem sameButTime.reportUnknown (op : Word) : sameButTime (s.reportUnknown op) (t.reportUnknown op) := by
  obtain ⟨c, rfl⟩ := sameButTime_iff.1 h
  rfl

theorem sameButTime.accessAtIndex {u w : State} (hu : sameButTime u w) (n : Nat) (op : Word) :
    SameAnswerButTime (s.accessAtIndex n op u) (t.accessAtIndex n op w) := by
  have hi : t.i = s.i := h ▸ rfl
  refine ⟨_, _, rfl, rfl, ?_⟩
  rw [hi]
  split
  · exact h.raise _ _ _
  · exact hu

theorem sameButTime.exec_ret (ign : BitVec 8) : SameAnswerButTime (exec (.ret ign) s) (exec (.ret ign) t) := by
  obtain ⟨c, rfl⟩ := sameButTime_iff.1 h
  by_cases live : 0 < s.sp.val
  · exact ⟨_, _, exec_ret_of_live ign live, exec_ret_of_live (s := s.withTime c) ign live, rfl⟩
  · exact ⟨_, _, exec_ret_of_empty ign live, exec_ret_of_empty ign live, rfl⟩

theorem sameButTime.exec_call (nnn : Addr12) : SameAnswerButTime (exec (.call nnn) s) (exec (.call nnn) t) := by
  obtain ⟨c, rfl⟩ := sameButTime_iff.1 h
  by_cases room : s.sp.val < Config.stackCapacity
  · exact ⟨_, _, exec_call_of_room nnn room, exec_call_of_room (s := s.withTime c) nnn room, rfl⟩
  · exact ⟨_, _, exec_call_of_full nnn room, exec_call_of_full nnn room, rfl⟩

/-- EXECUTE of any instruction but GET_TIMER: of the input only the keys and the random byte reach the rest. -/
theorem sameButTime.exec_of_ne_getTimer (hkeys : s.input.keys = t.input.keys) (hrand : s.input.rand = t.input.rand)
    {i : Instr} (hi : ∀ x, i ≠ .getTimer x) : SameAnswerButTime (exec i s) (exec i t) := by
  obtain ⟨c, rfl⟩ := sameButTime_iff.1 h
  cases i with
  | getTimer x => exact absurd rfl (hi x)
  | ret ign => exact h.exec_ret ign
  | call nnn => exact h.exec_call nnn
  | bcd | storeRegs | loadRegs | draw => exact h.accessAtIndex (by exact rfl) _ _
  | rand x nn => exact ⟨_, _, rfl, rfl, hrand ▸ rfl⟩
  | keyPressed x | keyNotPressed x =>
    refine ⟨_, _, rfl, rfl, ?_⟩
    rw [State.refreshKeys, State.refreshKeys, ← hkeys]
    rfl
  | _ => exact ⟨_, _, rfl, rfl, rfl⟩

theorem sameButTime.wakeOnKey (hkey : s.input.keyDown = t.input.keyDown) :
    sameButTime s.wakeOnKey t.wakeOnKey := by
  obtain ⟨c, rfl⟩ := sameButTime_iff.1 h
  cases hk : s.input.keyDown with
  | none => rwa [State.wakeOnKey_of_none hk, State.wakeOnKey_of_none (hkey.symm.trans hk)]
  | some k =>
    rw [State.wakeOnKey_of_some hk, State.wakeOnKey_of_some (hkey.symm.trans hk)]
    rfl

theorem sameButTime.endCycle : sameButTime s.endCycle t.endCycle := by
  obtain ⟨c, rfl⟩ := sameButTime_iff.1 h
  obtain ⟨hh, he⟩ | ⟨hh, hp, he⟩ | ⟨hh, hp, he⟩ := s.endCycle_cases <;> rw [he]
  · rw [State.endCycle_of_halted (s := s.withTime c) hh]
    rfl
  · rw [State.endCycle_of_waiting (s := s.withTime c) hh hp]
    rfl
  · rw [State.endCycle_of_ready (s := s.withTime c) hh hp]
    rfl

end

/-- Settles O51, in each of the four things a step can do. -/
theorem ticksReachTheRestOnlyThroughGetTimer : Obligations.TicksReachTheRestOnlyThroughGetTimer := by
  intro s t h hkeys hrand hkey hgetTimer s' hstep
  have hrun : t.halted = s.halted := h ▸ rfl
  have hphase : t.phase = s.phase := h ▸ rfl
  have hfetch : t.fetch = s.fetch := h ▸ rfl
  obtain ⟨run, hcases⟩ := step_cases hstep
  obtain ⟨hp, rfl⟩ | ⟨hp, hf, rfl⟩ | ⟨hp, w, hf, hd, rfl⟩ | ⟨hp, w, i, u, hf, hd, hexec, rfl⟩ := hcases
  · exact ⟨_, step_waiting (hrun.trans run) (hphase.trans hp), (h.wakeOnKey hkey).endCycle⟩
  · exact ⟨_, step_of_unfetched (hrun.trans run) (hphase.trans hp) (hfetch.trans hf), h.raiseFetch.endCycle⟩
  · exact ⟨_, step_of_unknown (hrun.trans run) (hphase.trans hp) (hfetch.trans hf) hd, (h.reportUnknown w).endCycle⟩
  · obtain ⟨u', v, hu, hv, huv⟩ :=
      h.exec_of_ne_getTimer hkeys hrand fun x hi => hgetTimer w x hf (hi ▸ hd)
    cases hexec.symm.trans hu
    refine ⟨v.endCycle, ?_, huv.endCycle⟩
    rw [step_of_decoded (hrun.trans run) (hphase.trans hp) (hfetch.trans hf) hd, hv]
    rfl

end Sys2Proof.Machine

/-! # Control transfer (41_control_transfer)

The equations of CALL and RETURN by what the stack holds stand above. Here are the targets of the jumps as numbers, a
skip on a comparison as one record, and what a pop gives, by the stack and `SP` alone. -/

namespace Sys2Proof.Machine

/-! ## CALL and RETURN (R120, R122) -/

/-- The entry a pop gives depends on the stack and `SP` alone. -/
theorem State.top_congr {s t : State} (hstack : s.stack = t.stack) (hsp : s.sp = t.sp) (live : 0 < s.sp.val) :
    s.top live = t.top (hsp ▸ live) := by
  simp only [State.top, hstack, hsp]

/-- The entry a pop gives, as the cell of the stack it is (R26). -/
theorem State.stack_getElem?_top (s : State) (live : 0 < s.sp.val) :
    s.stack[s.sp.val - 1]? = some (s.top live) := Vector.getElem?_eq_getElem _

/-- Settles O18: what the RETURN pops is what the CALL pushed, since the stack and `SP` are those the CALL left. -/
theorem returnComesBackAfterTheCall : Obligations.ReturnComesBackAfterTheCall := by
  intro nnn ign s room
  refine ⟨_, exec_call_of_room nnn room, fun u hstack hsp => ?_⟩
  have live : 0 < u.sp.val := hsp ▸ Nat.succ_pos s.sp.val
  refine ⟨_, exec_ret_of_live ign live, ?_, Fin.ext ?_⟩
  · calc u.top live = (s.push (s.pc + 2#16) room).top (Nat.succ_pos _) := State.top_congr hstack hsp live
      _ = s.pc + 2#16 := State.top_push _ _ _ _
  · simp [hsp]

/-- Settles O15. -/
theorem returnPopsThePc : Obligations.ReturnPopsThePc := by
  intro ign s
  refine ⟨decode_encode (.ret ign), fun live => ?_, fun empty => exec_ret_of_empty ign (by omega)⟩
  exact ⟨_, exec_ret_of_live ign live, s.dropTop_sp_val, s.stack_getElem?_top live, rfl⟩

/-! ## Jump targets (R121, R127) -/

/-- `NNN` keeps its value in 16 bits (R73). -/
theorem address_toNat (nnn : Addr12) : (address nnn).toNat = nnn.toNat :=
  BitVec.toNat_setWidth_of_le (by decide)

/-- The target of JUMP_OFFSET does not wrap: it is at most 0x10FE (R127). -/
theorem State.offsetTarget_toNat (s : State) (nnn : Addr12) :
    (s.offsetTarget nnn).toNat = nnn.toNat + (s.reg 0#4).toNat := by
  have hn := nnn.isLt
  have hr := (s.reg 0#4).isLt
  rw [State.offsetTarget, BitVec.toNat_add, address_toNat, BitVec.toNat_setWidth_of_le (by decide)]
  exact Nat.mod_eq_of_lt (by omega)

/-- Settles O16. -/
theorem jumpSetsThePc : Obligations.JumpSetsThePc :=
  fun nnn _ => ⟨decode_encode (.jump nnn), _, rfl, address_toNat nnn, rfl⟩

/-- Settles O21. -/
theorem jumpOffsetAddsVZero : Obligations.JumpOffsetAddsVZero :=
  fun nnn s => ⟨decode_encode (.jumpOffset nnn), _, rfl, s.offsetTarget_toNat nnn, rfl⟩

/-- Settles O17: of the stack only the cell at `SP` is written. -/
theorem callPushesTheNextAddress : Obligations.CallPushesTheNextAddress := by
  intro nnn s
  refine ⟨decode_encode (.call nnn), fun room => ?_, fun full => exec_call_of_full nnn full.not_lt⟩
  refine ⟨_, exec_call_of_room nnn room, ?_, fun k hk => ?_, rfl, address_toNat nnn, rfl⟩
  · exact Vector.getElem?_set_self room
  · exact Vector.getElem_set_ne room k.isLt hk.symm

/-! ## Skips (R123 to R126) -/

/-- A skip as one record: `pc` moves by 4 or by 2, and nothing else changes. -/
theorem State.skipIf_eq (s : State) (taken : Bool) :
    s.skipIf taken = { s with pc := if taken then s.pc + 4#16 else s.pc + 2#16 } := by
  cases taken <;> rfl

theorem State.skipIf_beq (s : State) (a b : Byte) :
    s.skipIf (a == b) = { s with pc := if a = b then s.pc + 4#16 else s.pc + 2#16 } := by
  simp only [State.skipIf_eq, beq_iff_eq]

theorem State.skipIf_bne (s : State) (a b : Byte) :
    s.skipIf (a != b) = { s with pc := if a = b then s.pc + 2#16 else s.pc + 4#16 } := by
  simp only [State.skipIf_eq, bne_iff_ne, ne_eq, ite_not]

/-- Settles O19. -/
theorem skipsCompareWithAConstant : Obligations.SkipsCompareWithAConstant :=
  fun x nn s => ⟨decode_encode (.skipEqConst x nn), decode_encode (.skipNeqConst x nn),
    congrArg _ (s.skipIf_beq _ nn), congrArg _ (s.skipIf_bne _ nn)⟩

/-- Settles O20: no meaning reads the low nibble, which `encode` keeps. -/
theorem skipsCompareTwoRegisters : Obligations.SkipsCompareTwoRegisters :=
  fun x y ign s => ⟨decode_encode (.skipEqReg x y ign), decode_encode (.skipNeqReg x y ign),
    congrArg _ (s.skipIf_beq _ _), congrArg _ (s.skipIf_bne _ _)⟩

end Sys2Proof.Machine

/-! # Registers, ALU and flags (42_alu)

Every instruction of the family is `State.setReg` or `State.setRegFlag` followed by `pc + 2`. What the two shapes leave
in the registers and in the rest of the state is said once; an instruction then adds the value of its result and of its
flag as a number. -/

namespace Sys2Proof.Machine

/-! ## The two shapes -/

section
variable (s : State) (x : Nibble) (b f : Byte)

theorem State.reg_setReg_advance : ((s.setReg x b).advance 2#16).reg x = b := by
  rw [State.advance_reg, State.reg_setReg_same]

/-- One destination: what stays. -/
theorem State.setReg_advance_frame :
    (∀ y, y ≠ x → ((s.setReg x b).advance 2#16).reg y = s.reg y) ∧
    ((s.setReg x b).advance 2#16).pc = s.pc + 2#16 ∧
    (s.setReg x b).advance 2#16 =
      { s with v := ((s.setReg x b).advance 2#16).v, pc := ((s.setReg x b).advance 2#16).pc } :=
  ⟨fun _ hy => s.reg_setReg_other b hy, rfl, rfl⟩

variable {x b f}

theorem State.reg_setRegFlag_advance (hx : x ≠ 15#4) : ((s.setRegFlag x b f).advance 2#16).reg x = b := by
  rw [State.advance_reg, State.reg_setRegFlag_result s b f hx]

/-- The flag is written last, so this asks nothing of `x` (R111). -/
theorem State.toNat_flag_setRegFlag_advance {c : Nat} (hf : f.toNat = c) :
    (((s.setRegFlag x b f).advance 2#16).reg 15#4).toNat = c :=
  (congrArg BitVec.toNat (s.reg_setRegFlag_flag x b f)).trans hf

/-- A destination and the flag register: what stays. -/
theorem State.setRegFlag_advance_frame :
    (∀ z, z ≠ x → z ≠ 15#4 → ((s.setRegFlag x b f).advance 2#16).reg z = s.reg z) ∧
    ((s.setRegFlag x b f).advance 2#16).pc = s.pc + 2#16 ∧
    (s.setRegFlag x b f).advance 2#16 =
      { s with v := ((s.setRegFlag x b f).advance 2#16).v, pc := ((s.setRegFlag x b f).advance 2#16).pc } :=
  ⟨fun _ hz hF => s.reg_setRegFlag_other b f hz hF, rfl, rfl⟩

end

/-! ## Flags and results as numbers (R22, R146 to R150) -/

theorem flagByte_toNat (f : Bool) : (flagByte f).toNat = f.toNat := by
  cases f <;> rfl

theorem carryFlag_toNat (a b : Byte) : (carryFlag a b).toNat = if a.toNat + b.toNat > 255 then 1 else 0 := by
  rw [carryFlag, flagByte_toNat, Bool.toNat, Bool.cond_decide]

theorem notBorrowFlag_toNat (a b : Byte) : (notBorrowFlag a b).toNat = if b.toNat > a.toNat then 0 else 1 := by
  rw [notBorrowFlag, flagByte_toNat, ← decide_not, Bool.toNat, Bool.cond_decide, ite_not]

theorem rightFlag_toNat (a : Byte) : (rightFlag a).toNat = a.toNat % 2 := by
  rw [rightFlag, flagByte_toNat, BitVec.getLsbD, Nat.toNat_testBit, Nat.pow_zero, Nat.div_one]

/-- A byte divided by 128 is its top bit. -/
theorem leftFlag_toNat (a : Byte) : (leftFlag a).toNat = a.toNat / 128 := by
  have := a.isLt
  rw [leftFlag, flagByte_toNat, BitVec.getLsbD, Nat.toNat_testBit]
  omega

/-- The difference mod 256 of the integers the two bytes stand for. -/
theorem byte_sub_toNat (a b : Byte) : ((a - b).toNat : Int) = (a.toNat - b.toNat : Int) % 256 := by
  have := b.isLt
  rw [BitVec.toNat_sub]
  omega

/-! ## One destination (R140 to R145, R151) -/

/-- Settles O22. -/
theorem setConstLoadsTheConstant : Obligations.SetConstLoadsTheConstant :=
  fun x nn s => ⟨decode_encode (.setConst x nn), _, rfl, s.reg_setReg_advance x nn, s.setReg_advance_frame x nn⟩

/-- Settles O23. -/
theorem addConstWrapsWithoutAFlag : Obligations.AddConstWrapsWithoutAFlag := by
  intro x nn s
  refine ⟨decode_encode (.addConst x nn), _, rfl, ?_, s.setReg_advance_frame x _⟩
  rw [State.reg_setReg_advance, BitVec.toNat_add]

/-- Settles O24. -/
theorem setRegCopiesTheRegister : Obligations.SetRegCopiesTheRegister :=
  fun x y s => ⟨decode_encode (.setReg x y), _, rfl, s.reg_setReg_advance x _, s.setReg_advance_frame x _⟩

/-- Settles O25. -/
theorem bitwiseInstructionsCombineTwoRegisters : Obligations.BitwiseInstructionsCombineTwoRegisters := by
  intro x y s
  refine ⟨⟨decode_encode (.orReg x y), _, rfl, fun b => ?_, s.setReg_advance_frame x _⟩,
    ⟨decode_encode (.andReg x y), _, rfl, fun b => ?_, s.setReg_advance_frame x _⟩,
    ⟨decode_encode (.xorReg x y), _, rfl, fun b => ?_, s.setReg_advance_frame x _⟩⟩
  · rw [State.reg_setReg_advance, BitVec.getLsbD_or]
  · rw [State.reg_setReg_advance, BitVec.getLsbD_and]
  · rw [State.reg_setReg_advance, BitVec.getLsbD_xor]

/-- Settles O29: the mask alone decides the bits outside `NN`. -/
theorem randMasksTheDrawnByte : Obligations.RandMasksTheDrawnByte := by
  intro x nn r s
  refine ⟨decode_encode (.rand x nn), _, rfl, fun hr => ?_, fun b hb => ?_, s.setReg_advance_frame x _⟩
  · rw [State.reg_setReg_advance, hr]
  · rw [State.reg_setReg_advance, BitVec.getLsbD_and, hb, Bool.and_false]

/-! ## A result and a flag (R146 to R150) -/

/-- Settles O26. -/
theorem addRegAddsWithCarryOut : Obligations.AddRegAddsWithCarryOut := by
  intro x y s
  refine ⟨decode_encode (.addReg x y), _, rfl, fun hx => ?_,
    s.toNat_flag_setRegFlag_advance (carryFlag_toNat _ _), s.setRegFlag_advance_frame⟩
  rw [s.reg_setRegFlag_advance hx, BitVec.toNat_add]

/-- Settles O27: SUBN is SUB with minuend and subtrahend exchanged, in the result and in the flag. -/
theorem subtractionsWrapAndFlagNotBorrow : Obligations.SubtractionsWrapAndFlagNotBorrow := by
  intro x y s
  refine ⟨⟨decode_encode (.sub x y), _, rfl, fun hx => ?_,
      s.toNat_flag_setRegFlag_advance (notBorrowFlag_toNat _ _), s.setRegFlag_advance_frame⟩,
    ⟨decode_encode (.subn x y), _, rfl, fun hx => ?_,
      s.toNat_flag_setRegFlag_advance (notBorrowFlag_toNat _ _), s.setRegFlag_advance_frame⟩⟩
  · rw [s.reg_setRegFlag_advance hx, byte_sub_toNat]
  · rw [s.reg_setRegFlag_advance hx, byte_sub_toNat]

/-- Settles O28: no meaning reads the ignored nibble, which `encode` keeps. -/
theorem shiftsMoveOneBitIntoTheFlag : Obligations.ShiftsMoveOneBitIntoTheFlag := by
  intro x ign s
  refine ⟨⟨decode_encode (.shiftRight x ign), _, rfl, fun hx => ?_,
      s.toNat_flag_setRegFlag_advance (rightFlag_toNat _), s.setRegFlag_advance_frame⟩,
    ⟨decode_encode (.shiftLeft x ign), _, rfl, fun hx => ?_,
      s.toNat_flag_setRegFlag_advance (leftFlag_toNat _), s.setRegFlag_advance_frame⟩⟩
  · rw [s.reg_setRegFlag_advance hx, BitVec.toNat_ushiftRight, Nat.shiftRight_eq_div_pow, Nat.pow_one]
  · rw [s.reg_setRegFlag_advance hx, BitVec.toNat_shiftLeft, Nat.shiftLeft_eq, Nat.pow_one, Nat.mul_comm]

end Sys2Proof.Machine

/-! # Index register and memory (43_index_memory)

An access through `I` whose last byte is `I + k` faults or runs as 4095 bounds that byte. The state after a store of any
bytes at `I` is described once; BCD and STORE_REGS are that state with the bytes they store. -/

namespace Sys2Proof.Machine

/-! ## An access by its last byte (R55, R204, R206) -/

section
variable {s t : State} {k : Nat} {op : Word}

theorem State.accessAtIndex_of_le (h : s.i.toNat + k ≤ 4095) : s.accessAtIndex (k + 1) op t = .next t :=
  State.accessAtIndex_inside (.inr (Nat.succ_le_succ h))

theorem State.accessAtIndex_of_lt (h : 4095 < s.i.toNat + k) :
    s.accessAtIndex (k + 1) op t = .next (s.faulted 4#3 (lowestOutside s.i) op) :=
  State.accessAtIndex_outside k.succ_pos (Nat.succ_lt_succ h)

end

/-! ## A store at `I` (R163, R164) -/

/-- The state after an instruction that stores `bs` at `I` up. -/
def State.stored (s : State) (bs : List Byte) : State :=
  (s.setMem (Memory.writeBytes s.mem s.i.toNat bs)).advance 2#16

theorem exec_bcd_of_le (x : Nibble) {s : State} (h : s.i.toNat + 2 ≤ 4095) :
    exec (.bcd x) s = .next (s.stored (bcdDigits (s.reg x))) := State.accessAtIndex_of_le h

theorem exec_storeRegs_of_le (x : Nibble) {s : State} (h : s.i.toNat + x.toNat ≤ 4095) :
    exec (.storeRegs x) s = .next (s.stored (s.regsUpTo x)) := State.accessAtIndex_of_le h

section
variable {s : State} {bs : List Byte} {k : Nat} (hlen : bs.length = k + 1)
include hlen

/-- Inside a canonical memory, byte `r` of the stored bytes is read back at `I + r`. -/
theorem State.byte_stored (hm : Memory.wf s.mem = true) (hin : s.i.toNat + k ≤ 4095) {r : Nat} (hr : r < bs.length) :
    (s.stored bs).byte (s.i.toNat + r) = bs[r] :=
  Memory.get_writeBytes_inside hm bs _ r (hlen ▸ Nat.succ_le_succ hin) hr

/-- What a store leaves unchanged. -/
theorem State.stored_frame :
    (∀ a, a < s.i.toNat ∨ s.i.toNat + k < a → (s.stored bs).byte a = s.byte a) ∧
    (s.stored bs).pc = s.pc + 2#16 ∧
    s.stored bs = { s with mem := (s.stored bs).mem, pc := (s.stored bs).pc } :=
  ⟨fun a ha => Memory.get_writeBytes_outside bs _ _ a (by omega), rfl, rfl⟩

end

/-- A number up to a byte fits in a byte, as each decimal digit of the byte does (R163). -/
theorem toNat_ofNat_of_le_byte {n : Nat} {b : Byte} (h : n ≤ b.toNat) : (BitVec.ofNat 8 n).toNat = n :=
  Nat.mod_eq_of_lt (h.trans_lt b.isLt)

/-- Settles O32. -/
theorem bcdStoresThreeDigits : Obligations.BcdStoresThreeDigits := by
  intro x s hm
  refine ⟨decode_encode (.bcd x), fun hin => ⟨_, exec_bcd_of_le x hin, ?_⟩, State.accessAtIndex_of_lt⟩
  have hlen : (bcdDigits (s.reg x)).length = 2 + 1 := rfl
  have digit {r n : Nat} (hr : r < 3) (hn : (bcdDigits (s.reg x))[r] = BitVec.ofNat 8 n) (hle : n ≤ (s.reg x).toNat) :
      ((s.stored (bcdDigits (s.reg x))).byte (s.i.toNat + r)).toNat = n := by
    rw [State.byte_stored hlen hm hin hr, hn, toNat_ofNat_of_le_byte hle]
  have hundreds := digit (r := 0) (by decide) rfl (Nat.div_le_self _ 100)
  have tens := digit (r := 1) (by decide) rfl ((Nat.mod_le _ 10).trans (Nat.div_le_self _ 10))
  have ones := digit (r := 2) (by decide) rfl (Nat.mod_le _ 10)
  exact ⟨hundreds, tens, ones, State.stored_frame hlen⟩

/-- Settles O33. -/
theorem storeRegsStoresTheRange : Obligations.StoreRegsStoresTheRange := by
  intro x s hm
  refine ⟨decode_encode (.storeRegs x), fun hin => ?_, State.accessAtIndex_of_lt⟩
  have hexec := exec_storeRegs_of_le x hin
  exact ⟨_, hexec, fun _ hr => exec_storeRegs_byte hm hin hexec hr, State.stored_frame (s.length_regsUpTo x)⟩

/-! ## A load from `I` (R165) -/

/-- Settles O34. -/
theorem loadRegsLoadsTheRange : Obligations.LoadRegsLoadsTheRange := by
  intro x s
  refine ⟨decode_encode (.loadRegs x), fun hin => ?_, State.accessAtIndex_of_lt⟩
  exact ⟨_, State.accessAtIndex_of_le hin, s.reg_loadRegsFrom s.i.toNat x, rfl, rfl⟩

/-! ## The index register (R160 to R162) -/

/-- Settles O30. -/
theorem setIndexLoadsTheAddress : Obligations.SetIndexLoadsTheAddress :=
  fun nnn _ => ⟨decode_encode (.setIndex nnn), _, rfl, address_toNat nnn, rfl, rfl⟩

/-- The sum of R161 is taken modulo 65536 and not masked to 12 bits. -/
theorem index_add_byte_toNat (w : Word) (b : Byte) :
    (w + b.setWidth 16).toNat = (w.toNat + b.toNat) % 65536 := by
  rw [BitVec.toNat_add, BitVec.toNat_setWidth_of_le (by decide)]

/-- The glyph address does not wrap: it is at most 0x9B (R162). -/
theorem glyphAddress_toNat (b : Byte) : (glyphAddress b).toNat = 0x50 + 5 * (b.toNat % 16) := by
  have hlt : 0x50 + 5 * (b.toNat % 16) < 65536 := by omega
  exact Nat.mod_eq_of_lt hlt

/-- Settles O31. -/
theorem indexArithmeticHasNoFlag : Obligations.IndexArithmeticHasNoFlag :=
  fun x s => ⟨⟨decode_encode (.addToIndex x), _, rfl, index_add_byte_toNat s.i (s.reg x), rfl, rfl⟩,
    ⟨decode_encode (.fontChar x), _, rfl, glyphAddress_toNat (s.reg x), rfl, rfl⟩⟩

end Sys2Proof.Machine

/-! # Display (44_display)

What a DRAW does is said once, cell by cell, about the state it leaves: a cell is inverted where the sprite has a 1 bit,
and `V[F]` is 1 when such a cell was 1. Both statements about DRAW follow from that, the second one because the state
after a DRAW puts the same sprite on the same cells. -/

namespace Sys2Proof.Machine

/-! ## CLS (R170) -/

/-- Settles O36. -/
theorem clsBlanksTheFramebuffer : Obligations.ClsBlanksTheFramebuffer :=
  fun ign _ => ⟨decode_encode (.cls ign), _, rfl, fun _ _ => cellAt_blankFb _ _, rfl, rfl, rfl⟩

/-! ## A whole sprite on a canvas (R171 to R173) -/

section
variable {ox oy X Y : Nat} {bs : List Byte} (hox : ox < Config.fbWidth) (hoy : oy < Config.fbHeight)
  (hlen : bs.length ≤ Config.fbHeight)
include hox hoy hlen

theorem Canvas.cellAt_blit_zero (hX : X < Config.fbWidth) (hY : Y < Config.fbHeight) (p : Canvas) :
    cellAt (Canvas.blit ox oy bs 0 p).fb X Y = (cellAt p.fb X Y ^^ spriteBit bs ox oy X Y) := by
  rw [Canvas.cellAt_blit hox hoy hX hY bs 0 p (by omega)]
  simp [spriteBit]

/-- The cells under a sprite's 1 bits are those its columns and rows fall on, going round both axes (R173). -/
theorem spriteBit_iff (hX : X < Config.fbWidth) (hY : Y < Config.fbHeight) :
    spriteBit bs ox oy X Y = true ↔ ∃ i j, i < bs.length ∧ j < 8 ∧ (bs.getD i 0#8).getLsbD (7 - j) = true ∧
      X = (ox + j) % Config.fbWidth ∧ Y = (oy + i) % Config.fbHeight := by
  simp only [spriteBit, Bool.and_eq_true, decide_eq_true_eq]
  constructor
  · rintro ⟨hj, hbit⟩
    have hi : (Y + Config.fbHeight - oy) % Config.fbHeight < bs.length := by
      by_contra hge
      rw [List.getD_eq_default _ _ (not_lt.1 hge), BitVec.getLsbD_zero] at hbit
      exact absurd hbit (by decide)
    exact ⟨_, _, hi, hj, hbit, (column_iff hox hX (hj.trans (by decide))).2 rfl,
      (row_iff hoy hY (hi.trans_le hlen)).2 rfl⟩
  · rintro ⟨i, j, hi, hj, hbit, hXj, hYi⟩
    rw [(column_iff hox hX (hj.trans (by decide))).1 hXj, (row_iff hoy hY (hi.trans_le hlen)).1 hYi]
    exact ⟨hj, hbit⟩

theorem Canvas.collision_blit_zero (fb : Vector PixelRow Config.fbHeight) :
    (Canvas.blit ox oy bs 0 { fb := fb, collision := false }).collision = true ↔
      ∃ X Y, X < Config.fbWidth ∧ Y < Config.fbHeight ∧ cellAt fb X Y = true ∧ spriteBit bs ox oy X Y = true := by
  rw [Canvas.collision_blit hox oy bs 0 _ (by omega)]
  simp only [Bool.false_eq_true, false_or, Nat.zero_add]
  constructor
  · rintro ⟨i, j, hi, hj, hbit, hcell⟩
    have hX : (ox + j) % Config.fbWidth < Config.fbWidth := Nat.mod_lt _ (by decide)
    have hY : (oy + i) % Config.fbHeight < Config.fbHeight := Nat.mod_lt _ (by decide)
    exact ⟨_, _, hX, hY, hcell, (spriteBit_iff hox hoy hlen hX hY).2 ⟨i, j, hi, hj, hbit, rfl, rfl⟩⟩
  · rintro ⟨X, Y, hX, hY, hcell, hbit⟩
    obtain ⟨i, j, hi, hj, hrow, rfl, rfl⟩ := (spriteBit_iff hox hoy hlen hX hY).1 hbit
    exact ⟨i, j, hi, hj, hrow, hcell⟩

end

/-! ## The state after a DRAW (R171) -/

/-- Whether DRAW VX,VY,N has a 1 bit of its sprite on cell `(X, Y)`. -/
def State.spriteOn (s : State) (x y n : Nibble) : Nat → Nat → Bool :=
  spriteBit (s.sprite n) (originX (s.reg x)) (originY (s.reg y))

/-- The state after a DRAW whose sprite lies in memory. -/
def State.afterDraw (s : State) (x y n : Nibble) : State :=
  ((s.setFb (s.drawn x y n).fb).setReg regF (collisionFlag (s.drawn x y n))).advance 2#16

theorem flagByte_eq_one {f : Bool} : flagByte f = 1#8 ↔ f = true := by cases f <;> decide

section
variable {s : State} {x y n : Nibble}

theorem exec_draw_inside (h : n = 0#4 ∨ s.i.toNat + n.toNat - 1 ≤ 4095) :
    exec (.draw x y n) s = .next (s.afterDraw x y n) := by
  refine State.accessAtIndex_inside ?_
  rcases h with rfl | h
  · exact .inl rfl
  · simp only [Config.memorySize]
    omega

theorem exec_draw_outside (hn : 0 < n.toNat) (h : 4095 < s.i.toNat + n.toNat - 1) :
    exec (.draw x y n) s = .next (s.faulted 4#3 (lowestOutside s.i) (encode (.draw x y n))) :=
  State.accessAtIndex_outside hn (by simp only [Config.memorySize]; omega)

theorem originX_lt (b : Byte) : originX b < Config.fbWidth := Nat.mod_lt _ (by decide)

theorem originY_lt (b : Byte) : originY b < Config.fbHeight := Nat.mod_lt _ (by decide)

/-- A sprite has at most 15 rows, so none of them falls on another (R173). -/
theorem State.length_sprite_le (s : State) (n : Nibble) : (s.sprite n).length ≤ Config.fbHeight := by
  rw [State.sprite, Memory.length_readBytes]
  exact n.isLt.le.trans (by decide)

theorem State.cell_afterDraw {X Y : Nat} (hX : X < 64) (hY : Y < 32) :
    (s.afterDraw x y n).cell (X + Y * 64) = (s.cell (X + Y * 64) ^^ s.spriteOn x y n X Y) := by
  rw [State.cell_eq_cellAt _ Y hX, State.cell_eq_cellAt _ Y hX]
  exact Canvas.cellAt_blit_zero (originX_lt _) (originY_lt _) (s.length_sprite_le n) hX hY _

theorem State.flag_afterDraw : (s.afterDraw x y n).reg 15#4 = flagByte (s.drawn x y n).collision :=
  State.reg_setReg_same _ _ _

theorem State.flag_afterDraw_eq_one : (s.afterDraw x y n).reg 15#4 = 1#8 ↔
    ∃ X Y, X < 64 ∧ Y < 32 ∧ s.cell (X + Y * 64) = true ∧ s.spriteOn x y n X Y = true := by
  rw [State.flag_afterDraw, flagByte_eq_one]
  refine (Canvas.collision_blit_zero (originX_lt _) (originY_lt _) (s.length_sprite_le n) s.fb).trans ?_
  refine exists_congr fun X => exists_congr fun Y => and_congr_right fun hX => ?_
  rw [State.cell_eq_cellAt s Y hX]
  rfl

theorem State.flag_afterDraw_zero_or_one :
    (s.afterDraw x y n).reg 15#4 = 0#8 ∨ (s.afterDraw x y n).reg 15#4 = 1#8 := by
  rw [State.flag_afterDraw]
  cases (s.drawn x y n).collision with
  | false => exact .inl rfl
  | true => exact .inr rfl

theorem State.reg_afterDraw_other {z : Nibble} (hz : z ≠ 15#4) : (s.afterDraw x y n).reg z = s.reg z :=
  State.reg_setReg_other _ _ hz

/-- A DRAW with its origin in other registers than `V[F]` has its sprite on the same cells when it runs again. -/
theorem State.spriteOn_afterDraw (hx : x ≠ 15#4) (hy : y ≠ 15#4) :
    (s.afterDraw x y n).spriteOn x y n = s.spriteOn x y n := by
  simp only [State.spriteOn, State.reg_afterDraw_other hx, State.reg_afterDraw_other hy]
  rfl

/-- Inverting the same cells twice restores them (R175). -/
theorem State.fb_afterDraw_twice (hx : x ≠ 15#4) (hy : y ≠ 15#4) :
    ((s.afterDraw x y n).afterDraw x y n).fb = s.fb := by
  refine fb_ext fun X Y hX hY => ?_
  rw [← State.cell_eq_cellAt _ Y hX, ← State.cell_eq_cellAt _ Y hX, State.cell_afterDraw hX hY,
    State.cell_afterDraw hX hY, State.spriteOn_afterDraw hx hy, Bool.xor_assoc, Bool.xor_self, Bool.xor_false]

end

/-- Settles O37. -/
theorem drawXorsTheSpriteAndFlagsCollision : Obligations.DrawXorsTheSpriteAndFlagsCollision := by
  intro x y n s
  refine ⟨decode_encode (.draw x y n), fun hin => ⟨_, exec_draw_inside hin, ?_⟩, exec_draw_outside⟩
  exact ⟨fun _ _ => State.cell_afterDraw, State.flag_afterDraw_zero_or_one, State.flag_afterDraw_eq_one,
    fun _ => State.reg_afterDraw_other, rfl, rfl, rfl⟩

/-- Settles O38: the cells the first DRAW sets on blank cells are those the second one collides with. -/
theorem drawingTwiceRestoresTheFramebuffer : Obligations.DrawingTwiceRestoresTheFramebuffer := by
  intro x y n s hx hy hin
  refine ⟨_, _, exec_draw_inside hin, exec_draw_inside hin, State.fb_afterDraw_twice hx hy, fun blank => ⟨?_, ?_⟩⟩
  · refine State.flag_afterDraw_zero_or_one.resolve_right fun hone => ?_
    obtain ⟨X, Y, hX, hY, hcell, hbit⟩ := State.flag_afterDraw_eq_one.1 hone
    exact absurd hcell (by simp [blank X Y hX hY hbit])
  · rw [State.flag_afterDraw_eq_one, State.spriteOn_afterDraw hx hy]
    constructor
    · rintro ⟨X, Y, hX, hY, -, hbit⟩
      exact ⟨X, Y, hX, hY, hbit⟩
    · rintro ⟨X, Y, hX, hY, hbit⟩
      have hcell : (s.afterDraw x y n).cell (X + Y * 64) = true := by
        rw [State.cell_afterDraw hX hY, blank X Y hX hY hbit, Bool.false_xor]
        exact hbit
      exact ⟨X, Y, hX, hY, hcell, hbit⟩

end Sys2Proof.Machine

/-! # Keys and timers (45_keys_timers)

No instruction of the family faults. The key skips test the levels they have just copied; the key-down that ends a wait
is KeyDownEndsTheWait, read at the state WAIT_FOR_KEY leaves. -/

namespace Sys2Proof.Machine

/-! ## Key skips (R180, R181) -/

/-- A skip on a negated test: the two targets are exchanged. -/
theorem State.skipIf_not (s : State) (taken : Bool) :
    s.skipIf (!taken) = { s with pc := if taken then s.pc + 2#16 else s.pc + 4#16 } := by
  cases taken <;> rfl

/-- Settles O39: both are skips of the state with `KEYS` refreshed, KEY_NOT_PRESSED on the negated test. -/
theorem keySkipsTestTheRefreshedSnapshot : Obligations.KeySkipsTestTheRefreshedSnapshot :=
  fun x s => ⟨decode_encode (.keyPressed x), decode_encode (.keyNotPressed x),
    congrArg _ (s.refreshKeys.skipIf_eq _), congrArg _ (s.refreshKeys.skipIf_not _)⟩

/-! ## Waiting for a key (R183) -/

/-- Settles O41: a key-down ends the wait as it ends any other, in the register WAIT_FOR_KEY has named. -/
theorem waitForKeyBeginsTheWait : Obligations.WaitForKeyBeginsTheWait := by
  intro x k s
  refine ⟨decode_encode (.waitForKey x), _, rfl, rfl, fun run hk => ?_⟩
  obtain ⟨u, hstep, hreg, -, hpc, hphase, -, -, -, -, hframe⟩ :=
    keyDownEndsTheWait { s with waitReg := x, phase := .waitKey } k run rfl hk
  have hkeys : u.keys = s.keys := by rw [hframe]
  exact ⟨u, hstep, hreg, hpc, hphase, hkeys⟩

/-! ## Timers (R182, R184, R185) -/

/-- Settles O40. -/
theorem getTimerReadsTheDelayTimer : Obligations.GetTimerReadsTheDelayTimer :=
  fun x s => ⟨decode_encode (.getTimer x), _, rfl, s.reg_setReg_advance x s.dt, s.setReg_advance_frame x s.dt⟩

/-- Settles O42. -/
theorem setDelayLoadsTheDelayTimer : Obligations.SetDelayLoadsTheDelayTimer :=
  fun x _ => ⟨decode_encode (.setDelay x), rfl⟩

/-- Settles O43. -/
theorem setSoundLoadsTheSoundTimer : Obligations.SetSoundLoadsTheSoundTimer :=
  fun x _ => ⟨decode_encode (.setSound x), rfl⟩

end Sys2Proof.Machine

/-! # Repeated ticks (R211, R212) -/

namespace Sys2Proof.Machine

/-- Settles O9: `k` ticks are `State.afterTicks k`, whose timers and beeps have the stated values. -/
theorem ticksCountDownAndBeepOnce : Obligations.TicksCountDownAndBeepOnce := by
  intro k s
  rw [State.tickTimes_eq_afterTicks, State.afterTicks, countDown_eq, countDown_eq, beeps_eq]

end Sys2Proof.Machine

/-! # The loader (R205, R242)

A boot is two runs of writes into the reset memory. The font ends at 0xA0, below the ROM, so neither overwrites the
other. -/

namespace Sys2Proof.Machine

/-- The memory a boot leaves: the font at 0x50, the ROM at 0x200 (R242). -/
def bootMemory (font rom : List Byte) : Memory :=
  Memory.writeBytes (Memory.writeBytes State.reset.mem 0x50 font) 0x200 rom

/-- A run of writes inside memory, by optional index. -/
theorem Memory.get_writeBytes_of_getElem? {m : Memory} (hm : Memory.wf m = true) {xs : List Byte} {a k : Nat} {b : Byte}
    (ha : a + xs.length ≤ Config.memorySize) (hk : xs[k]? = some b) : (Memory.writeBytes m a xs).get (a + k) = b := by
  obtain ⟨hlt, rfl⟩ := List.getElem?_eq_some_iff.1 hk
  exact Memory.get_writeBytes_inside hm xs a k ha hlt

/-- R205: a ROM larger than the program space is refused. -/
theorem State.boot_of_oversized (font : List Byte) {rom : List Byte} (hrom : 3584 < rom.length) :
    State.boot font rom = none := by
  have hbad : romWellFormed rom = false := decide_eq_false (Nat.not_le.2 hrom)
  rw [State.boot, hbad, Bool.and_false]
  rfl

section
variable {font rom : List Byte} (hfont : font.length = 80) (hrom : rom.length ≤ 3584)
include hfont

theorem font_inside_memory : 0x50 + font.length ≤ Config.memorySize := by
  rw [hfont]
  decide

theorem wf_fontMemory : Memory.wf (Memory.writeBytes State.reset.mem 0x50 font) = true :=
  Memory.wf_writeBytes reset_memory_wf font 0x50 (font_inside_memory hfont)

/-- The font lies below the ROM, which leaves it alone. -/
theorem get_bootMemory_font {k : Nat} {b : Byte} (hk : font[k]? = some b) : (bootMemory font rom).get (0x50 + k) = b := by
  have hlt : k < font.length := (List.getElem?_eq_some_iff.1 hk).1
  rw [bootMemory, Memory.get_writeBytes_outside _ _ _ _ (by omega)]
  exact Memory.get_writeBytes_of_getElem? reset_memory_wf (font_inside_memory hfont) hk

/-- R56: what neither the font nor the ROM covers keeps the reset contents. -/
theorem get_bootMemory_elsewhere {a : Nat} (ha : a < 0x50 ∨ 0xA0 ≤ a) (ha' : a < 0x200 ∨ 0x200 + rom.length ≤ a) :
    (bootMemory font rom).get a = 0#8 := by
  rw [bootMemory, Memory.get_writeBytes_outside _ _ _ _ ha', Memory.get_writeBytes_outside _ _ _ _ (by omega)]
  rfl

include hrom

theorem State.boot_of_fits : State.boot font rom = some (State.reset.setMem (bootMemory font rom)) := by
  have hfits : (fontWellFormed font && romWellFormed rom) = true :=
    Bool.and_eq_true_iff.2 ⟨beq_iff_eq.2 hfont, decide_eq_true hrom⟩
  rw [State.boot, if_pos hfits, State.loadBytes_inside font _ _ (font_inside_memory hfont),
    State.loadBytes_inside rom _ _ (Nat.add_le_add_left hrom 0x200)]
  rfl

theorem wf_bootMemory : Memory.wf (bootMemory font rom) = true :=
  Memory.wf_writeBytes (wf_fontMemory hfont) rom 0x200 (Nat.add_le_add_left hrom 0x200)

theorem get_bootMemory_rom {k : Nat} {b : Byte} (hk : rom[k]? = some b) : (bootMemory font rom).get (0x200 + k) = b :=
  Memory.get_writeBytes_of_getElem? (wf_fontMemory hfont) (Nat.add_le_add_left hrom 0x200) hk

end

/-- Settles O56: what fits boots into `bootMemory`, whose bytes are read back range by range. -/
theorem bootPlacesFontAndRom : Obligations.BootPlacesFontAndRom := by
  intro font rom hfont
  refine ⟨fun hrom => ⟨_, State.boot_of_fits hfont hrom, ?_, ?_, ?_, wf_bootMemory hfont hrom, rfl⟩,
    State.boot_of_oversized font⟩
  · exact fun _ _ => get_bootMemory_font hfont
  · exact fun _ _ => get_bootMemory_rom hfont hrom
  · exact fun _ => get_bootMemory_elsewhere hfont

end Sys2Proof.Machine
